-- ==== Sys2Proof/Word.lean ====
section
/-! DEFINITION. The bit-vector types of K2 CORE and the names its spec gives to widening and narrowing
(00_scope.md R8, R10, R11). -/

namespace Sys2Proof

/-- A register index or an opcode: a 4-bit field (R8, R71). -/
abbrev Nibble := BitVec 4

/-- The contents of a general register, of RD, RS and SP (R8). -/
abbrev Byte := BitVec 8

/-- A word address inside the 4096-word memory, and the addr12 field (R8, R71). -/
abbrev Addr := BitVec 12

/-- An instruction or memory word, and the contents of PC, RM, RF, IR and a stack slot (R8). -/
abbrev Word := BitVec 16

/-- `zext_N(v)`: zero bits on the left (R11). -/
abbrev zext {n : Nat} (w : Nat) (v : BitVec n) : BitVec w := v.setWidth w

/-- `trunc_N(v)`: a natural number modulo `2^N` (R11). -/
abbrev trunc (w : Nat) (v : Nat) : BitVec w := BitVec.ofNat w v

end Sys2Proof
end

