-- ==== Sys2Proof/Config.lean ====
section
/-! DEFINITION. The fixed sizes of the hardware (00_scope.md R8) and the TYPES of the parameters its spec leaves
open (R9). The values the spec takes for the parameters stand beside the definitions that use them:
`opcodeMap` in Decode.lean and `sraFill` in Machine/Shift.lean. No behaviour of K2 is "any value"
(93_implementation_defined.md), so there is no opaque constant. -/

namespace Sys2Proof

/-- `MEM_WORDS` (R8). -/
abbrev memWords : Nat := 4096

/-- `NUM_GPR` (R8). -/
abbrev numGpr : Nat := 12

/-- `STACK_SLOTS` (R8). -/
abbrev stackSlots : Nat := 16

/-- The sixteen mnemonics (30_encoding.md R84), in the order of R76. -/
inductive Mnemonic where
  | ld | mv | add | sub | mult | div | mod | skp | sne | j | call | ret | la | sla | sra | wa
  deriving DecidableEq, Repr

/-- `OPCODE_MAP` as a parameter (30_encoding.md R76, R77; decision D1): the nibble of each mnemonic, and the
mnemonic, if any, that a nibble selects. -/
structure OpcodeMap where
  /-- `OPCODE_MAP`. -/
  code : Mnemonic → Nibble
  /-- `OPCODE_MAP⁻¹`; `none` is a nibble with no handler (R77). -/
  handler : Nibble → Option Mnemonic

/-- What R76 asks of the parameter: a bijection with LD at 0x0 and ADD at 0x2. -/
def OpcodeMap.Lawful (m : OpcodeMap) : Prop :=
  (∀ n, m.handler (m.code n) = some n) ∧ (∀ op n, m.handler op = some n → m.code n = op) ∧
    (∀ op, (m.handler op).isSome) ∧ m.code .ld = 0x0 ∧ m.code .add = 0x2

/-- `SRA_FILL` as a parameter (46_shift.md R221; decision D6). -/
inductive SraFill where
  | zero | sign
  deriving DecidableEq, Repr

end Sys2Proof
end

