-- ==== Sys2Proof/Syntax.lean ====
section
/-! DEFINITION. The sixteen instructions of spec/opcode_table.json, one constructor each, with the fields their
handlers read (30_encoding.md R74). Unused bits are no operand: the decoder ignores them (R78; log 15). -/

namespace Sys2Proof

/-- A decoded K2 instruction. `rx` and `ry` are the raw 4-bit indices of the word, 12 to 15 included (R22, R79). -/
inductive Instr where
  /-- LD Rx, imm8 (R150). -/
  | ld (rx : Nibble) (imm8 : Byte)
  /-- MV Rx, Ry (R151). -/
  | mv (rx ry : Nibble)
  /-- ADD Rx, Ry (R162). -/
  | add (rx ry : Nibble)
  /-- SUB Rx, Ry (R163). -/
  | sub (rx ry : Nibble)
  /-- MULT Rx, Ry (R164). -/
  | mult (rx ry : Nibble)
  /-- DIV Rx, Ry (R165). -/
  | div (rx ry : Nibble)
  /-- MOD Rx, Ry (R166). -/
  | mod (rx ry : Nibble)
  /-- SKP Rx, Ry (R181). -/
  | skp (rx ry : Nibble)
  /-- SNE Rx, Ry (R182). -/
  | sne (rx ry : Nibble)
  /-- J addr12 (R191). -/
  | j (addr12 : Addr)
  /-- CALL addr12 (R192). -/
  | call (addr12 : Addr)
  /-- RET (R195). -/
  | ret
  /-- LA addr12 (R210). -/
  | la (addr12 : Addr)
  /-- SLA Rx, Ry (R215). -/
  | sla (rx ry : Nibble)
  /-- SRA Rx, Ry (R220). -/
  | sra (rx ry : Nibble)
  /-- WA Rx, addr8 (R230). -/
  | wa (rx : Nibble) (imm8 : Byte)
  deriving DecidableEq, Repr

end Sys2Proof
end

