-- ==== Sys2Proof/Decode.lean ====
section
/-! DEFINITION. The decoder and the encoder of 30_encoding.md: field extraction (R71, R72), the four formats (R73),
the opcode map (R76), dispatch of a nibble to its mnemonic (R77) and the codec contract (R81). -/

namespace Sys2Proof

/-- `OPCODE_MAP` of R76: the nibble of each mnemonic. -/
def opcodeOf : Mnemonic → Nibble
  | .ld => 0x0 | .mv => 0x1 | .add => 0x2 | .sub => 0x3
  | .mult => 0x4 | .div => 0x5 | .mod => 0x6 | .skp => 0x7
  | .sne => 0x8 | .j => 0x9 | .call => 0xA | .ret => 0xB
  | .la => 0xC | .sla => 0xD | .sra => 0xE | .wa => 0xF

/-- `OPCODE_MAP⁻¹` of R76: every nibble has a mnemonic (R79). -/
def mnemonicOf (op : Nibble) : Option Mnemonic :=
  match op.toNat with
  | 0x0 => some .ld | 0x1 => some .mv | 0x2 => some .add | 0x3 => some .sub
  | 0x4 => some .mult | 0x5 => some .div | 0x6 => some .mod | 0x7 => some .skp
  | 0x8 => some .sne | 0x9 => some .j | 0xA => some .call | 0xB => some .ret
  | 0xC => some .la | 0xD => some .sla | 0xE => some .sra | 0xF => some .wa
  | _ => none

/-- The value of the parameter `OPCODE_MAP` that the spec takes (R76, decision D1; log 3). UNVERIFIED against the
original repository but for LD and ADD, unsafe for a claim about a binary word of another opcode. -/
def opcodeMap : OpcodeMap := { code := opcodeOf, handler := mnemonicOf }

/-- The five fields of an instruction word, extracted at once and with no condition (R71, R72). -/
structure Fields where
  op : Nibble
  rx : Nibble
  ry : Nibble
  imm8 : Byte
  addr12 : Addr
  deriving DecidableEq, Repr

/-- Field extraction (R72): `op = w[15:12]`, `rx = w[11:8]`, `ry = w[7:4]`, `imm8 = w[7:0]`, `addr12 = w[11:0]`. -/
def fieldsOf (w : Word) : Fields where
  op := w.extractLsb' 12 4
  rx := w.extractLsb' 8 4
  ry := w.extractLsb' 4 4
  imm8 := w.extractLsb' 0 8
  addr12 := w.extractLsb' 0 12

/-- The instruction a mnemonic makes of the fields its handler reads (R74). -/
def instrOf (m : Mnemonic) (f : Fields) : Instr :=
  match m with
  | .ld => .ld f.rx f.imm8
  | .mv => .mv f.rx f.ry
  | .add => .add f.rx f.ry
  | .sub => .sub f.rx f.ry
  | .mult => .mult f.rx f.ry
  | .div => .div f.rx f.ry
  | .mod => .mod f.rx f.ry
  | .skp => .skp f.rx f.ry
  | .sne => .sne f.rx f.ry
  | .j => .j f.addr12
  | .call => .call f.addr12
  | .ret => .ret
  | .la => .la f.addr12
  | .sla => .sla f.rx f.ry
  | .sra => .sra f.rx f.ry
  | .wa => .wa f.rx f.imm8

/-- Why a word is rejected: its opcode nibble has no handler (R77). Under the map of R76 no word is (R79). -/
inductive DecodeError where
  | invalidOpcode (op : Nibble)
  deriving DecidableEq, Repr

/-- Decode and dispatch over an opcode map (R72, R77). -/
def decodeWith (m : OpcodeMap) (w : Word) : Except DecodeError Instr :=
  match m.handler (fieldsOf w).op with
  | some n => .ok (instrOf n (fieldsOf w))
  | none => .error (.invalidOpcode (fieldsOf w).op)

/-- The decoder of the hardware: total over all 65536 words (R72, R79). -/
def decode (w : Word) : Except DecodeError Instr := decodeWith opcodeMap w

/-- The mnemonic of an instruction (R74). -/
def Instr.mnemonic : Instr → Mnemonic
  | .ld _ _ => .ld
  | .mv _ _ => .mv
  | .add _ _ => .add
  | .sub _ _ => .sub
  | .mult _ _ => .mult
  | .div _ _ => .div
  | .mod _ _ => .mod
  | .skp _ _ => .skp
  | .sne _ _ => .sne
  | .j _ => .j
  | .call _ => .call
  | .ret => .ret
  | .la _ => .la
  | .sla _ _ => .sla
  | .sra _ _ => .sra
  | .wa _ _ => .wa

/-- Format RR (R73): the unused bits 3..0 are written 0 (R81). -/
def formatRR (op rx ry : Nibble) : Word := (op ++ rx ++ ry ++ (0 : Nibble) : BitVec (4 + 4 + 4 + 4))

/-- Format RI (R73). -/
def formatRI (op rx : Nibble) (imm8 : Byte) : Word := (op ++ rx ++ imm8 : BitVec (4 + 4 + 8))

/-- Format A (R73). -/
def formatA (op : Nibble) (addr12 : Addr) : Word := (op ++ addr12 : BitVec (4 + 12))

/-- Format N (R73): the unused bits 11..0 are written 0 (R81). -/
def formatN (op : Nibble) : Word := (op ++ (0 : Addr) : BitVec (4 + 12))

/-- The encoder over an opcode map (R81): each operand at the bits of its field, the opcode in bits 15..12. -/
def encodeWith (m : OpcodeMap) (i : Instr) : Word :=
  match i with
  | .ld rx imm8 => formatRI (m.code .ld) rx imm8
  | .mv rx ry => formatRR (m.code .mv) rx ry
  | .add rx ry => formatRR (m.code .add) rx ry
  | .sub rx ry => formatRR (m.code .sub) rx ry
  | .mult rx ry => formatRR (m.code .mult) rx ry
  | .div rx ry => formatRR (m.code .div) rx ry
  | .mod rx ry => formatRR (m.code .mod) rx ry
  | .skp rx ry => formatRR (m.code .skp) rx ry
  | .sne rx ry => formatRR (m.code .sne) rx ry
  | .j addr12 => formatA (m.code .j) addr12
  | .call addr12 => formatA (m.code .call) addr12
  | .ret => formatN (m.code .ret)
  | .la addr12 => formatA (m.code .la) addr12
  | .sla rx ry => formatRR (m.code .sla) rx ry
  | .sra rx ry => formatRR (m.code .sra) rx ry
  | .wa rx imm8 => formatRI (m.code .wa) rx imm8

/-- The word of an instruction under the map of R76 (R81, R94). -/
def encode (i : Instr) : Word := encodeWith opcodeMap i

/-- The instruction the decoder reads from a table word of `nbits` bits; bits above `nbits` are 0. Every K2
instruction is one 16-bit word (R70). -/
def decodeTableWord (nbits w : Nat) : Option Instr :=
  match decode (BitVec.ofNat 16 (w % 2 ^ nbits)) with
  | .ok i => some i
  | .error _ => none

end Sys2Proof
end

