-- ==== Sys2Proof/Machine/Flags.lean ====
section
/-! DEFINITION. What MOD, SLA and SRA put into RF, K2's only flag-like register (10_state.md R30, R31). -/

namespace Sys2Proof.Machine

/-- RF after MOD: `zext_16(remainder)` (42_arithmetic.md R166). -/
def rfOfRemainder (r : Byte) : Word := zext 16 r

/-- RF after a shift: `zext_16(r[7])`, bit 7 of the 8-bit result (46_shift.md R215, R220, R225). -/
def rfOfShift (r : Byte) : Word := zext 16 (r.extractLsb' 7 1)

end Sys2Proof.Machine
end

