-- ==== Sys2Proof/Machine/State.lean ====
section
/-! DEFINITION. The state of K2 CORE as plain data (10_state.md, 40_execution_engine.md R120, R121), the fault kinds and
the fault record (60_exceptions.md R240, R242), the host's moves (R134) and the state after reset (R39). -/

namespace Sys2Proof.Machine

/-- Why the model itself would stop with `Outcome.fault`: NOTHING DOES, so the type has no constructor. The six faults
of K2 are taken by the machine: the step answers the next state, in HaltedError, with the fault record written
(60_exceptions.md R241), and those are `FaultCause`. Safe: nothing is cut off (log 2). -/
inductive Fault : Type
  deriving DecidableEq, Repr

/-- Why the model has no meaning for an instruction. Safe: a refusal proves nothing about the hardware. -/
inductive Refusal : Type where
  /-- Raised by `exec`'s arm of an instruction that has no meaning yet; no arm of this model raises it. Safe. -/
  | notModelled (mnemonic : String)
  deriving DecidableEq, Repr

/-- The element whose unwritten contents a read met (60_exceptions.md R240, R246). -/
inductive Element where
  /-- A memory word, by its address: the PC that fetched it (20_memory.md R53). -/
  | mem (addr : Word)
  /-- A general register, by its index (40_execution_engine.md R131). -/
  | gpr (index : Nibble)
  /-- A call-stack slot (44_control_transfer.md R195). -/
  | stack (slot : Byte)
  deriving DecidableEq, Repr

/-- The six fault kinds (60_exceptions.md R240). -/
inductive FaultKind where
  | invalidOpcode | arithmeticFault | registerIndexFault | stackIndexFault | fetchAddressFault | unwrittenRead
  deriving DecidableEq, Repr

/-- A fault kind with the info that R240 says it records. -/
inductive FaultCause where
  /-- Raised by dispatch when the nibble has no handler (R243). -/
  | invalidOpcode (op : Nibble)
  /-- Raised by DIV and MOD on a zero divisor (R244); the info is the mnemonic. -/
  | arithmeticFault (mnemonic : Mnemonic)
  /-- Raised by a general register access at index 12 to 15 (R245). -/
  | registerIndexFault (index : Nibble)
  /-- Raised by CALL and RET at a stack index of 16 or more (R247). -/
  | stackIndexFault (mnemonic : Mnemonic) (index : Byte)
  /-- Raised by fetch at PC of 0x1000 or more (R248). -/
  | fetchAddressFault (pc : Word)
  /-- Raised by fetch, ReadGPR and RET on an element with no value (R246). -/
  | unwrittenRead (element : Element)
  deriving DecidableEq, Repr

/-- The fault record `(kind, code, PC, IR, info)` (60_exceptions.md R242). The kind and the info are the cause's, the
code is the kind's (`FaultCause.code`; log 12). `ir` is `none` for a fetch fault. -/
structure FaultRecord where
  cause : FaultCause
  pc : Word
  ir : Option Word
  deriving DecidableEq, Repr

/-- The states of the execution engine (40_execution_engine.md R120). -/
inductive Fsm where
  | ready | running | haltedNormal | haltedError
  deriving DecidableEq, Repr

/-- What the host does between two steps of the block (40_execution_engine.md R134): nothing, or one command. -/
inductive HostMove where
  /-- No command: the block takes its own step. -/
  | idle
  /-- The command `reset`. -/
  | reset
  /-- The command `load(words)`. -/
  | load (words : List Word)
  /-- The command `run`. -/
  | run
  deriving DecidableEq, Repr

/-- The memory: the written words as (word address, word) pairs, addresses strictly rising and below 4096. An
address that is not listed is unwritten (20_memory.md R56; log 11). -/
abbrev Memory := List (Nat × Word)

/-- The state of the machine. An `Option` field is an element that the spec lets hold "either a value of its stated
width or no value" (10_state.md R20; log 1). -/
structure State where
  /-- x[0] .. x[11] (R21). -/
  gpr : Vector (Option Byte) numGpr
  /-- PC (R25). -/
  pc : Word
  /-- RM (R28). -/
  rm : Option Word
  /-- RD (R29). -/
  rd : Option Byte
  /-- RS (R29). -/
  rs : Option Byte
  /-- RF (R30). -/
  rf : Option Word
  /-- SP (R32). -/
  sp : Byte
  /-- The call stack (R34). -/
  stack : Vector (Option Word) stackSlots
  /-- IR (R36). -/
  ir : Option Word
  /-- The memory (R35). -/
  mem : Memory
  /-- The engine's state (R37, R120). -/
  fsm : Fsm
  /-- The cycles left in the budget (R37, R121). -/
  remaining : Nat
  /-- The record of the fault that ended the run (R37, R121). -/
  fault : Option FaultRecord
  /-- Whether a `load` was accepted since reset (R120, R137; log 7). -/
  loaded : Bool
  /-- The model's own field: the host's coming moves, one a step, nothing when the list is empty (log 6). -/
  hostMoves : List HostMove
  deriving DecidableEq, Repr

/-- The machine right after reset (10_state.md R39, 70_reset_and_hazards.md R270). -/
def State.reset : State where
  gpr := Vector.replicate numGpr none
  pc := 0x0000
  rm := none
  rd := none
  rs := none
  rf := none
  sp := 0x00
  stack := Vector.replicate stackSlots none
  ir := none
  mem := []
  fsm := .ready
  remaining := 0
  fault := none
  loaded := false
  hostMoves := []

end Sys2Proof.Machine
end

