-- ==== Sys2Proof/Machine/Operands.lean ====
section
/-! DEFINITION. Operand access: the checked register primitives (40_execution_engine.md R131, R132) and the widening of
immediates, addresses and raw indices (30_encoding.md R75). -/

namespace Sys2Proof.Machine

/-- `ReadGPR(i)` (R131): the index is checked before the written-ness. -/
def readGpr (s : State) (i : Nibble) : Except FaultCause Byte :=
  if h : i.toNat < numGpr then
    match s.gpr[i.toNat] with
    | some v => .ok v
    | none => .error (.unwrittenRead (.gpr i))
  else .error (.registerIndexFault i)

/-- `WriteGPR(i, v)` (R132), on the staged state. A write to an unwritten register gives it a value. -/
def writeGpr (s : State) (i : Nibble) (v : Byte) : Except FaultCause State :=
  if h : i.toNat < numGpr then .ok { s with gpr := s.gpr.set i.toNat (some v) }
  else .error (.registerIndexFault i)

/-- `imm8` of WA as a word address: `zext_12(imm8)` (20_memory.md R57). -/
def storeAddr (imm8 : Byte) : Addr := zext 12 imm8

/-- The word WA stores: `zext_16(rx)`, the raw index (47_store.md R230, R231). -/
def storedIndex (rx : Nibble) : Word := zext 16 rx

/-- `addr12` as PC or RM takes it: `zext_16(addr12)` (30_encoding.md R75). -/
def target (addr12 : Addr) : Word := zext 16 addr12

/-- PC with the extra word of a taken skip: `trunc_16(PC + 1)` (43_skip.md R181). -/
def skipPc (skip : Bool) (pc : Word) : Word := if skip then trunc 16 (pc.toNat + 1) else pc

end Sys2Proof.Machine
end

