-- ==== Sys2Proof/Machine/Ops.lean ====
section
/-! DEFINITION. The shared operations: reading and writing memory (20_memory.md), fetching (R53), pushing and popping the
call stack (44_control_transfer.md), taking a fault (60_exceptions.md R241) and ending a cycle (40_execution_engine.md
R125, R127). A handler works on a staged copy of the state and answers that copy or the fault it raises (R14, R130). -/

namespace Sys2Proof.Machine

/-! ## Memory -/

/-- The word listed at a key, if any. -/
def Memory.lookup : Memory → Nat → Option Word
  | [], _ => none
  | (b, w) :: rest, a => if b = a then some w else Memory.lookup rest a

/-- The list with the word at a key replaced or put in its place. -/
def Memory.insert : Memory → Nat → Word → Memory
  | [], a, v => [(a, v)]
  | (b, w) :: rest, a, v =>
    if a < b then (a, v) :: (b, w) :: rest
    else if a = b then (a, v) :: rest
    else (b, w) :: Memory.insert rest a v

/-- `MemRead(addr, 1)` (00_scope.md R12): the word, or nothing where it is unwritten. -/
def Memory.read (m : Memory) (a : Addr) : Option Word := m.lookup a.toNat

/-- `MemWrite(addr, 1, v)` (00_scope.md R12). -/
def Memory.write (m : Memory) (a : Addr) (v : Word) : Memory := m.insert a.toNat v

/-- Every address of the list is above `lo`, below 4096 and strictly below the next one. -/
def Memory.sortedFrom : Nat → Memory → Bool
  | _, [] => true
  | lo, (a, _) :: rest => decide (lo ≤ a) && decide (a < memWords) && Memory.sortedFrom (a + 1) rest

/-- The canonical form of a memory (log 11). -/
def Memory.wf (m : Memory) : Bool := Memory.sortedFrom 0 m

/-- `memory[k] <- words[k]`, in order from address `k` (40_execution_engine.md R138). -/
def Memory.loadFrom (m : Memory) : Nat → List Word → Memory
  | _, [] => m
  | k, w :: ws => Memory.loadFrom (m.write (BitVec.ofNat 12 k) w) (k + 1) ws

/-! ## Faults -/

/-- The kind of a cause (60_exceptions.md R240). -/
def FaultCause.kind : FaultCause → FaultKind
  | .invalidOpcode _ => .invalidOpcode
  | .arithmeticFault _ => .arithmeticFault
  | .registerIndexFault _ => .registerIndexFault
  | .stackIndexFault _ _ => .stackIndexFault
  | .fetchAddressFault _ => .fetchAddressFault
  | .unwrittenRead _ => .unwrittenRead

/-- The code of a kind (60_exceptions.md R240). -/
def FaultKind.code : FaultKind → Nat
  | .invalidOpcode => 1
  | .arithmeticFault => 2
  | .registerIndexFault => 3
  | .stackIndexFault => 4
  | .fetchAddressFault => 5
  | .unwrittenRead => 6

/-- The code of a fault record (60_exceptions.md R242). -/
def FaultRecord.code (r : FaultRecord) : Nat := r.cause.kind.code

/-- Taking a fault (60_exceptions.md R241, R242; 40_execution_engine.md R127): the run ends in HaltedError with the record
written; PC, SP, registers, stack, memory and `remaining` keep their values. `ir` is the faulting word, `none` for a
fetch fault. K2 has no return from a fault (R252): only `reset` leaves HaltedError. -/
def takeFault (c : FaultCause) (ir : Option Word) (s : State) : State :=
  { s with fsm := .haltedError, fault := some { cause := c, pc := s.pc, ir := ir } }

/-! ## The cycle -/

/-- Fetch (20_memory.md R53): the word at PC, or the fault of an address outside memory or of an unwritten word. -/
def fetch (s : State) : Except FaultCause Word :=
  if memWords ≤ s.pc.toNat then .error (.fetchAddressFault s.pc)
  else
    match s.mem.read (zext 12 s.pc) with
    | some w => .ok w
    | none => .error (.unwrittenRead (.mem s.pc))

/-- The end of a cycle that completes (40_execution_engine.md R125, R126, R127), on the state the handler left: PC is
incremented, the budget decremented, and the run ends normally when the budget is used up. -/
def retire (s : State) : State :=
  { s with
    pc := s.pc + 1
    remaining := s.remaining - 1
    fsm := if s.remaining - 1 = 0 then .haltedNormal else s.fsm }

/-- Commit or abort (00_scope.md R14, 40_execution_engine.md R127): the handler's staged state is committed and the cycle
ended, or its fault is taken on the state `s` that the cycle began its handler with. -/
def endCycle (s : State) (handled : Except FaultCause State) : Host.Outcome State Fault Refusal :=
  match handled with
  | .ok staged => .next (retire staged)
  | .error c => .next (takeFault c s.ir s)

/-! ## The call stack -/

/-- The push of CALL (44_control_transfer.md R192, R193, R194): the PC of the CALL into `stack[SP]`, then SP plus 1. -/
def pushReturn (s : State) : Except FaultCause State :=
  if h : s.sp.toNat < stackSlots then
    .ok { s with stack := s.stack.set s.sp.toNat (some s.pc), sp := trunc 8 (s.sp.toNat + 1) }
  else .error (.stackIndexFault .call s.sp)

/-- `SP − 1` modulo 256 (44_control_transfer.md R195). -/
def popIndex (s : State) : Byte := trunc 8 (s.sp.toNat + 255)

/-- The pop of RET (44_control_transfer.md R195, R198): SP minus 1, then PC from `stack[SP]`; the slot keeps its value. -/
def popReturn (s : State) : Except FaultCause State :=
  if h : (popIndex s).toNat < stackSlots then
    match s.stack[(popIndex s).toNat] with
    | some v => .ok { s with sp := popIndex s, pc := v }
    | none => .error (.unwrittenRead (.stack (popIndex s)))
  else .error (.stackIndexFault .ret (popIndex s))

end Sys2Proof.Machine
end

