-- ==== Sys2Proof/Machine/Arithmetic.lean ====
section
/-! DEFINITION. ADD, SUB, MULT, DIV and MOD (42_arithmetic.md): exact results on naturals, then truncated to 8 bits. -/

namespace Sys2Proof.Machine

/-- `(a + b) mod 256` (R162). -/
def aluAdd (a b : Byte) : Byte := trunc 8 (a.toNat + b.toNat)

/-- `(a + 256 − b) mod 256` (R163). -/
def aluSub (a b : Byte) : Byte := trunc 8 (a.toNat + 256 - b.toNat)

/-- `(a × b) mod 256` (R164). -/
def aluMult (a b : Byte) : Byte := trunc 8 (a.toNat * b.toNat)

/-- `a / b`, the floor of the naturals' quotient (R165). -/
def aluDiv (a b : Byte) : Byte := trunc 8 (a.toNat / b.toNat)

/-- `a % b`, the naturals' remainder (R166). -/
def aluMod (a b : Byte) : Byte := trunc 8 (a.toNat % b.toNat)

/-- The two operands of an ALU instruction: x[rx] is read before x[ry] (R162). -/
def readPair (s : State) (rx ry : Nibble) : Except FaultCause (Byte × Byte) := do
  let a ← readGpr s rx
  let b ← readGpr s ry
  return (a, b)

/-- A zero divisor raises ArithmeticFault, after both operands are read (60_exceptions.md R244). -/
def checkDivisor (m : Mnemonic) (b : Byte) : Except FaultCause Unit :=
  if b = 0 then .error (.arithmeticFault m) else .ok ()

/-- ADD Rx, Ry (R162). -/
def execAdd (rx ry : Nibble) (s : State) : Host.Outcome State Fault Refusal :=
  endCycle s do
    let (a, b) ← readPair s rx ry
    writeGpr s rx (aluAdd a b)

/-- SUB Rx, Ry (R163). -/
def execSub (rx ry : Nibble) (s : State) : Host.Outcome State Fault Refusal :=
  endCycle s do
    let (a, b) ← readPair s rx ry
    writeGpr s rx (aluSub a b)

/-- MULT Rx, Ry (R164). -/
def execMult (rx ry : Nibble) (s : State) : Host.Outcome State Fault Refusal :=
  endCycle s do
    let (a, b) ← readPair s rx ry
    writeGpr s rx (aluMult a b)

/-- DIV Rx, Ry (R165). -/
def execDiv (rx ry : Nibble) (s : State) : Host.Outcome State Fault Refusal :=
  endCycle s do
    let (a, b) ← readPair s rx ry
    checkDivisor .div b
    writeGpr s rx (aluDiv a b)

/-- MOD Rx, Ry (R166): RF is written, no general register is. -/
def execMod (rx ry : Nibble) (s : State) : Host.Outcome State Fault Refusal :=
  endCycle s do
    let (a, b) ← readPair s rx ry
    checkDivisor .mod b
    return { s with rf := some (rfOfRemainder (aluMod a b)) }

end Sys2Proof.Machine
end

