-- ==== Sys2Proof/Machine/ControlTransfer.lean ====
section
/-! DEFINITION. J, CALL and RET (44_control_transfer.md). Each leaves PC at its target, and the end of the cycle still adds
1 (40_execution_engine.md R125). -/

namespace Sys2Proof.Machine

/-- J addr12 (R191). -/
def execJ (addr12 : Addr) (s : State) : Host.Outcome State Fault Refusal :=
  endCycle s (.ok { s with pc := target addr12 })

/-- CALL addr12 (R192). -/
def execCall (addr12 : Addr) (s : State) : Host.Outcome State Fault Refusal :=
  endCycle s do
    let pushed ← pushReturn s
    return { pushed with pc := target addr12 }

/-- RET (R195). -/
def execRet (s : State) : Host.Outcome State Fault Refusal :=
  endCycle s (popReturn s)

end Sys2Proof.Machine
end

