-- ==== Sys2Proof/Machine/LoadAddress.lean ====
section
/-! DEFINITION. LA (45_load_address.md). -/

namespace Sys2Proof.Machine

/-- LA addr12 (R210): RM takes the address; memory is not accessed. -/
def execLa (addr12 : Addr) (s : State) : Host.Outcome State Fault Refusal :=
  endCycle s (.ok { s with rm := some (target addr12) })

end Sys2Proof.Machine
end

