-- ==== Sys2Proof/Machine/RegisterTransfer.lean ====
section
/-! DEFINITION. LD and MV (41_register_transfer.md). -/

namespace Sys2Proof.Machine

/-- LD Rx, imm8 (R150). -/
def execLd (rx : Nibble) (imm8 : Byte) (s : State) : Host.Outcome State Fault Refusal :=
  endCycle s (writeGpr s rx imm8)

/-- MV Rx, Ry (R151): the source is read before the destination's index is checked. -/
def execMv (rx ry : Nibble) (s : State) : Host.Outcome State Fault Refusal :=
  endCycle s do
    let v ← readGpr s ry
    writeGpr s rx v

end Sys2Proof.Machine
end

