-- ==== Sys2Proof/Machine/Shift.lean ====
section
/-! DEFINITION. SLA and SRA (46_shift.md). The amount is the full 8-bit value of x[ry] (R225). -/

namespace Sys2Proof.Machine

/-- The value of the parameter `SRA_FILL` that the spec takes (R220, R221, decision D6; log 4). UNVERIFIED against the
original repository, unsafe for an SRA of a value with bit 7 set. -/
def sraFill : SraFill := .zero

/-- `trunc_8(a × 2^n)` (R215, R225). -/
def shiftLeft (a n : Byte) : Byte := trunc 8 (a.toNat * 2 ^ n.toNat)

/-- `floor(a / 2^n)` with zero fill, or `trunc_8(floor(s / 2^n))` of the two's complement value `s` of `a` with sign fill
(R220, R221, R225). -/
def shiftRight (fill : SraFill) (a n : Byte) : Byte :=
  match fill with
  | .zero => trunc 8 (a.toNat / 2 ^ n.toNat)
  | .sign => BitVec.ofInt 8 (((a.toNat : Int) - 256 * ((a.extractLsb' 7 1).toNat : Int)) / 2 ^ n.toNat)

/-- The writes of a shift: the result to x[rx], its bit 7 to RF (R215). -/
def writeShift (s : State) (rx : Nibble) (r : Byte) : Except FaultCause State := do
  let written ← writeGpr s rx r
  return { written with rf := some (rfOfShift r) }

/-- SLA Rx, Ry (R215). -/
def execSla (rx ry : Nibble) (s : State) : Host.Outcome State Fault Refusal :=
  endCycle s do
    let (a, n) ← readPair s rx ry
    writeShift s rx (shiftLeft a n)

/-- SRA Rx, Ry (R220). -/
def execSra (rx ry : Nibble) (s : State) : Host.Outcome State Fault Refusal :=
  endCycle s do
    let (a, n) ← readPair s rx ry
    writeShift s rx (shiftRight sraFill a n)

end Sys2Proof.Machine
end

