-- ==== Sys2Proof/Machine/Skip.lean ====
section
/-! DEFINITION. SKP and SNE (43_skip.md): they compare the raw index fields and access no register (R180). -/

namespace Sys2Proof.Machine

/-- SKP Rx, Ry (R181): skip one word if the indices are equal. -/
def execSkp (rx ry : Nibble) (s : State) : Host.Outcome State Fault Refusal :=
  endCycle s (.ok { s with pc := skipPc (decide (rx = ry)) s.pc })

/-- SNE Rx, Ry (R182): skip one word if the indices differ. -/
def execSne (rx ry : Nibble) (s : State) : Host.Outcome State Fault Refusal :=
  endCycle s (.ok { s with pc := skipPc (decide (rx ≠ ry)) s.pc })

end Sys2Proof.Machine
end

