-- ==== Sys2Proof/Machine/Store.lean ====
section
/-! DEFINITION. WA (47_store.md): the only data access, and a write (R232). -/

namespace Sys2Proof.Machine

/-- WA Rx, addr8 (R230, R231): the raw register index is stored, not the register's contents. -/
def execWa (rx : Nibble) (imm8 : Byte) (s : State) : Host.Outcome State Fault Refusal :=
  endCycle s (.ok { s with mem := s.mem.write (storeAddr imm8) (storedIndex rx) })

end Sys2Proof.Machine
end

