-- ==== Sys2Proof/Machine/Dispatch.lean ====
section
/-! DEFINITION. The dispatch of an instruction to its meaning (40_execution_engine.md R124), one arm per constructor. -/

namespace Sys2Proof.Machine

/-- The handler and the commit of one cycle, after fetch and decode (R124, R127). -/
def exec (i : Instr) (s : State) : Host.Outcome State Fault Refusal :=
  match i with
  | .ld rx imm8 => Sys2Proof.Machine.execLd rx imm8 s
  | .mv rx ry => Sys2Proof.Machine.execMv rx ry s
  | .add rx ry => Sys2Proof.Machine.execAdd rx ry s
  | .sub rx ry => Sys2Proof.Machine.execSub rx ry s
  | .mult rx ry => Sys2Proof.Machine.execMult rx ry s
  | .div rx ry => Sys2Proof.Machine.execDiv rx ry s
  | .mod rx ry => Sys2Proof.Machine.execMod rx ry s
  | .skp rx ry => Sys2Proof.Machine.execSkp rx ry s
  | .sne rx ry => Sys2Proof.Machine.execSne rx ry s
  | .j addr12 => Sys2Proof.Machine.execJ addr12 s
  | .call addr12 => Sys2Proof.Machine.execCall addr12 s
  | .ret => Sys2Proof.Machine.execRet s
  | .la addr12 => Sys2Proof.Machine.execLa addr12 s
  | .sla rx ry => Sys2Proof.Machine.execSla rx ry s
  | .sra rx ry => Sys2Proof.Machine.execSra rx ry s
  | .wa rx imm8 => Sys2Proof.Machine.execWa rx imm8 s

end Sys2Proof.Machine
end

