-- ==== Sys2Proof/Machine/Cycle.lean ====
section
/-! DEFINITION. One fetch-decode-execute cycle (40_execution_engine.md R122 to R127). -/

namespace Sys2Proof.Machine

/-- One cycle over an opcode map (R127). A fetch fault leaves IR as it was (R123). A successful fetch writes IR, and that
stands even if the handler faults. A nibble with no handler raises InvalidOpcode (60_exceptions.md R243). -/
def cycleWith (m : OpcodeMap) (s : State) : Host.Outcome State Fault Refusal :=
  match fetch s with
  | .error c => .next (takeFault c none s)
  | .ok w =>
    match decodeWith m w with
    | .error (.invalidOpcode op) => .next (takeFault (.invalidOpcode op) (some w) { s with ir := some w })
    | .ok i => exec i { s with ir := some w }

/-- One cycle of the hardware (R127), under the opcode map of 30_encoding.md R76. -/
def cycle (s : State) : Host.Outcome State Fault Refusal := cycleWith opcodeMap s

/-- The block's own step (R120, R129): a cycle in Running. No step is enabled in Ready and in the halted states, and the
state stays as it is (log 8). -/
def ownStep (s : State) : Host.Outcome State Fault Refusal :=
  match s.fsm with
  | .running => cycle s
  | .ready => .next s
  | .haltedNormal => .next s
  | .haltedError => .next s

end Sys2Proof.Machine
end

