-- ==== Sys2Proof/Machine/HostInterface.lean ====
section
/-! DEFINITION. The host interface (40_execution_engine.md R134, R137 to R140): the commands `reset`, `load` and `run` and
the view `observe`. A command outside its allowed states is refused: it has no effect and no transition (R134). -/

namespace Sys2Proof.Machine

/-- `reset`, in any state (R120, 70_reset_and_hazards.md R270). The host's later moves are not the block's state and stay
(log 22). -/
def commandReset (s : State) : State := { State.reset with hostMoves := s.hostMoves }

/-- `load(words)` (R120, R138): in Ready, once after reset, at most 4096 words; refused otherwise (log 19). -/
def commandLoad (words : List Word) (s : State) : State :=
  if s.fsm = .ready ∧ s.loaded = false ∧ words.length ≤ memWords then
    { s with mem := s.mem.loadFrom 0 words, remaining := words.length, loaded := true }
  else s

/-- `run` (R120, R139): in Ready; straight to HaltedNormal when the budget is 0; refused otherwise. -/
def commandRun (s : State) : State :=
  match s.fsm with
  | .ready => { s with fsm := if s.remaining = 0 then .haltedNormal else .running }
  | .running => s
  | .haltedNormal => s
  | .haltedError => s

/-- What `observe` returns (R140). An unwritten element is `none`. DESIGN CHOICE: `ir` is part of the view, as R140 lists
it, although 10_state.md R36 says that the host observes IR only as part of the fault record (log 24). -/
structure View where
  fsm : Fsm
  fault : Option FaultRecord
  gpr : Vector (Option Byte) numGpr
  rm : Option Word
  rd : Option Byte
  rs : Option Byte
  rf : Option Word
  pc : Word
  sp : Byte
  stack : Vector (Option Word) stackSlots
  ir : Option Word
  /-- memory[0x000] .. memory[0xFFF], in order. -/
  memory : List (Option Word)
  deriving DecidableEq, Repr

/-- `observe`, in any state and without effect (R134, R140; log 21). That it shows IR follows R140 against 10_state.md R36
(DESIGN CHOICE, log 24). -/
def observe (s : State) : View where
  fsm := s.fsm
  fault := s.fault
  gpr := s.gpr
  rm := s.rm
  rd := s.rd
  rs := s.rs
  rf := s.rf
  pc := s.pc
  sp := s.sp
  stack := s.stack
  ir := s.ir
  memory := (List.range memWords).map fun a => s.mem.read (BitVec.ofNat 12 a)

end Sys2Proof.Machine
end

