-- ==== Sys2Proof/Machine/Step.lean ====
section
/-! DEFINITION. One step of the machine: the host's next move if it has one, else the block's own step
(40_execution_engine.md R120, R134; log 6). -/

namespace Sys2Proof.Machine

/-- One step. A command lands between two cycles (R59, R122). With no command the block takes its own step. -/
def step (s : State) : Host.Outcome State Fault Refusal :=
  match s.hostMoves with
  | [] => ownStep s
  | .idle :: rest => ownStep { s with hostMoves := rest }
  | .reset :: rest => .next (commandReset { s with hostMoves := rest })
  | .load words :: rest => .next (commandLoad words { s with hostMoves := rest })
  | .run :: rest => .next (commandRun { s with hostMoves := rest })

/-- `s` with a table word stored where the next step fetches, as after a load and a run (log 10): the word at PC (PC is
brought into memory if it lies outside), the engine Running with at least one cycle left, and no host move before it. -/
def State.withFetchWord (s : State) (nbits w : Nat) : State :=
  { s with
    pc := zext 16 (zext 12 s.pc)
    mem := s.mem.write (zext 12 s.pc) (BitVec.ofNat 16 (w % 2 ^ nbits))
    fsm := .running
    remaining := if s.remaining = 0 then 1 else s.remaining
    fault := none
    loaded := true
    hostMoves := [] }

end Sys2Proof.Machine
end

