-- ==== Sys2Proof/WellFormed.lean ====
section
/-! DEFINITION. Which instructions name only registers that exist. The operand types already bound every field by its
width, so every `Instr` has an encoding (30_encoding.md R81); what can still be wrong with one is a general
register index of 12 to 15 (10_state.md R22, 30_encoding.md R79). Such a word decodes and is executed: it raises
RegisterIndexFault (log 16). -/

namespace Sys2Proof

/-- The index names one of the twelve general registers (10_state.md R21). -/
def isGpr (i : Nibble) : Bool := decide (i.toNat < numGpr)

/-- Every index that the instruction uses to access a general register is 0 to 11. SKP, SNE and WA use their
indices as values and access no register (10_state.md R22, R23). -/
def Instr.wellFormed : Instr → Bool
  | .ld rx _ => isGpr rx
  | .mv rx ry => isGpr rx && isGpr ry
  | .add rx ry => isGpr rx && isGpr ry
  | .sub rx ry => isGpr rx && isGpr ry
  | .mult rx ry => isGpr rx && isGpr ry
  | .div rx ry => isGpr rx && isGpr ry
  | .mod rx ry => isGpr rx && isGpr ry
  | .skp _ _ => true
  | .sne _ _ => true
  | .j _ => true
  | .call _ => true
  | .ret => true
  | .la _ => true
  | .sla rx ry => isGpr rx && isGpr ry
  | .sra rx ry => isGpr rx && isGpr ry
  | .wa _ _ => true

end Sys2Proof
end

