-- ==== Sys2Proof/Machine/Assembler.lean ====
section
/-! DEFINITION. The assembler of 30_encoding.md R82 to R94, surrounding software that fixes the encoding the block must agree
with (00_scope.md R6): a function from the characters of a source text to instruction words or a SyntaxError (log 17). -/

namespace Sys2Proof.Assembler

/-! ## Tokens -/

/-- The separators are exactly the space and the newline (R82). -/
def isSeparator (c : Char) : Bool := c == ' ' || c == '\n'

/-- The tokens of a text whose characters `acc`, latest first, are already read into the current token (R82). -/
def splitFrom (acc : List Char) : List Char → List (List Char)
  | [] => if acc.isEmpty then [] else [acc.reverse]
  | c :: cs =>
    if isSeparator c then
      if acc.isEmpty then splitFrom [] cs else acc.reverse :: splitFrom [] cs
    else splitFrom (c :: acc) cs

/-- The tokenizer: maximal runs of characters that are no separator (R82). -/
def tokens (src : List Char) : List (List Char) := splitFrom [] src

/-- The mnemonics as source text spells them (R84). -/
def mnemonicText : Mnemonic → String
  | .ld => "LD" | .mv => "MV" | .add => "ADD" | .sub => "SUB"
  | .mult => "MULT" | .div => "DIV" | .mod => "MOD" | .skp => "SKP"
  | .sne => "SNE" | .j => "J" | .call => "CALL" | .ret => "RET"
  | .la => "LA" | .sla => "SLA" | .sra => "SRA" | .wa => "WA"

/-- The sixteen mnemonics (R84). -/
def mnemonics : List Mnemonic :=
  [.mv, .add, .sub, .mult, .div, .mod, .skp, .sne, .ld, .wa, .j, .call, .la, .sra, .sla, .ret]

/-- The register names, the name of index `n − 1` being `R<n>` (00_scope.md R16). -/
def registerNames : List String :=
  ["R1", "R2", "R3", "R4", "R5", "R6", "R7", "R8", "R9", "R10", "R11", "R12"]

/-- A hex digit `0-9`, `a-f` or `A-F` (R83). -/
def hexDigit (c : Char) : Option Nibble :=
  if 0x30 ≤ c.toNat ∧ c.toNat ≤ 0x39 then some (BitVec.ofNat 4 (c.toNat - 0x30))
  else if 0x61 ≤ c.toNat ∧ c.toNat ≤ 0x66 then some (BitVec.ofNat 4 (c.toNat - 0x61 + 10))
  else if 0x41 ≤ c.toNat ∧ c.toNat ≤ 0x46 then some (BitVec.ofNat 4 (c.toNat - 0x41 + 10))
  else none

/-- A run of hex digits. -/
def hexDigits : List Char → Option (List Nibble)
  | [] => some []
  | c :: cs =>
    match hexDigit c, hexDigits cs with
    | some d, some ds => some (d :: ds)
    | _, _ => none

/-- The value of decimal digits `0-9` after digits of value `acc` (R83). -/
def decimalFrom (acc : Nat) : List Char → Option Nat
  | [] => some acc
  | c :: cs =>
    if 0x30 ≤ c.toNat ∧ c.toNat ≤ 0x39 then decimalFrom (acc * 10 + (c.toNat - 0x30)) cs else none

/-- The token categories of R83, each with what its operand digits need. -/
inductive Token where
  | opcode (m : Mnemonic)
  | register (index : Nibble)
  | address (digits : List Nibble)
  | number (value : Nat)
  | invalid
  | endOfInput
  deriving DecidableEq, Repr

/-- ADDRESS (R83): `0x` followed by one or more hex digits. -/
def addressToken : List Char → Option (List Nibble)
  | '0' :: 'x' :: d :: ds => hexDigits (d :: ds)
  | _ => none

/-- NUMBER (R83): one or more decimal digits. -/
def numberToken : List Char → Option Nat
  | [] => none
  | d :: ds => decimalFrom 0 (d :: ds)

/-- The category of a token (R83). -/
def classify (t : List Char) : Token :=
  match mnemonics.find? (fun m => (mnemonicText m).toList == t) with
  | some m => .opcode m
  | none =>
    match registerNames.findIdx? (fun n => n.toList == t) with
    | some k => .register (BitVec.ofNat 4 k)
    | none =>
      match addressToken t with
      | some ds => .address ds
      | none =>
        match numberToken t with
        | some v => .number v
        | none => .invalid

/-! ## Grammar -/

/-- The operand categories that a slot accepts (R85). -/
inductive Slot where
  | register | numberOrAddress | address
  deriving DecidableEq, Repr

/-- The grammar table: six shapes (R85, conflict C1). SLA and SRA take one register (R93, conflict C2). -/
def grammar : Mnemonic → List Slot
  | .mv => [.register, .register]
  | .add => [.register, .register]
  | .sub => [.register, .register]
  | .mult => [.register, .register]
  | .div => [.register, .register]
  | .mod => [.register, .register]
  | .skp => [.register, .register]
  | .sne => [.register, .register]
  | .ld => [.register, .numberOrAddress]
  | .wa => [.register, .address]
  | .j => [.address]
  | .call => [.address]
  | .la => [.address]
  | .sra => [.register]
  | .sla => [.register]
  | .ret => []

/-- The digits an ADDRESS operand must have: 2 in LD and WA, 3 in J, CALL and LA (R87). No other mnemonic has one. -/
def addressWidth : Mnemonic → Nat
  | .ld => 2
  | .wa => 2
  | .j => 3
  | .call => 3
  | .la => 3
  | .mv => 0 | .add => 0 | .sub => 0 | .mult => 0 | .div => 0 | .mod => 0
  | .skp => 0 | .sne => 0 | .ret => 0 | .sla => 0 | .sra => 0

/-- The assembler's errors, all SyntaxErrors of R90. Each aborts the whole assembly. -/
inductive SyntaxError where
  /-- A statement does not begin with an OPCODE (R86). -/
  | invalidSyntax (found : Token)
  /-- An operand token is of a category its slot does not accept, END_OF_INPUT included (R86). -/
  | wrongCategory (found : Token)
  /-- A NUMBER above 255 (R87). -/
  | numberTooLarge (value : Nat)
  /-- An ADDRESS with another number of digits than its instruction takes (R87). -/
  | addressDigits (digits : List Nibble)
  deriving DecidableEq, Repr

/-- Operand digits (R87). -/
def operandDigits (m : Mnemonic) (slot : Slot) (t : Token) : Except SyntaxError (List Nibble) :=
  match slot, t with
  | .register, .register i => .ok [i]
  | .numberOrAddress, .number v =>
    if v ≤ 255 then .ok [BitVec.ofNat 4 (v / 16), BitVec.ofNat 4 (v % 16)] else .error (.numberTooLarge v)
  | .numberOrAddress, .address ds =>
    if ds.length = addressWidth m then .ok ds else .error (.addressDigits ds)
  | .address, .address ds =>
    if ds.length = addressWidth m then .ok ds else .error (.addressDigits ds)
  | _, found => .error (.wrongCategory found)

/-- Word construction (R88): the digits fill the word from bit 15 down, zeros below. -/
def wordOfDigits (ds : List Nibble) : Word :=
  match ds ++ [0, 0, 0, 0] with
  | a :: b :: c :: d :: _ => (a ++ b ++ c ++ d : BitVec (4 + 4 + 4 + 4))
  | _ => 0

/-! ## Statements -/

/-- A statement being read: its digits so far, the slot of the next operand, and the slots after it (R86). -/
structure Pending where
  mnemonic : Mnemonic
  digits : List Nibble
  slot : Slot
  rest : List Slot
  deriving DecidableEq, Repr

/-- The statement algorithm (R86), at the top level (`none`) or inside a statement. -/
def assembleFrom : Option Pending → List (List Char) → Except SyntaxError (List Word)
  | none, [] => .ok []
  | none, t :: ts =>
    match classify t with
    | .opcode m =>
      match grammar m with
      | [] => do
        let ws ← assembleFrom none ts
        return wordOfDigits [opcodeMap.code m] :: ws
      | slot :: rest => assembleFrom (some ⟨m, [opcodeMap.code m], slot, rest⟩) ts
    | found => .error (.invalidSyntax found)
  | some _, [] => .error (.wrongCategory .endOfInput)
  | some p, t :: ts =>
    match operandDigits p.mnemonic p.slot (classify t) with
    | .error e => .error e
    | .ok ds =>
      match p.rest with
      | [] => do
        let ws ← assembleFrom none ts
        return wordOfDigits (p.digits ++ ds) :: ws
      | slot :: rest => assembleFrom (some ⟨p.mnemonic, p.digits ++ ds, slot, rest⟩) ts

/-- The assembler as the words it emits, in order, or its error with no output (R86, R90). -/
def assemble (src : List Char) : Except SyntaxError (List Word) := assembleFrom none (tokens src)

/-! ## Output -/

/-- A nibble as a lowercase hex digit (R88). -/
def hexChar (d : Nibble) : Char :=
  if d.toNat < 10 then Char.ofNat (0x30 + d.toNat) else Char.ofNat (0x61 + (d.toNat - 10))

/-- A word as four lowercase hex digits, bits 15..12 first (R88, 20_memory.md R52). -/
def wordText (w : Word) : List Char :=
  [hexChar (w.extractLsb' 12 4), hexChar (w.extractLsb' 8 4), hexChar (w.extractLsb' 4 4), hexChar (w.extractLsb' 0 4)]

/-- The words, one a line, joined with newlines (R89). -/
def outputText : List Word → List Char
  | [] => []
  | [w] => wordText w
  | w :: v :: ws => wordText w ++ '\n' :: outputText (v :: ws)

/-- The assembler from text to text (R82, R89). -/
def assembleText (src : String) : Except SyntaxError String := do
  let ws ← assemble src.toList
  return String.ofList (outputText ws)

/-! ## The syntax of an instruction -/

/-- The source name of a register index (00_scope.md R16). -/
def registerText (i : Nibble) : List Char := (registerNames.getD i.toNat "").toList

/-- An 8-bit operand as an ADDRESS of two digits (R87). -/
def addr8Text (v : Byte) : List Char := ['0', 'x', hexChar (v.extractLsb' 4 4), hexChar (v.extractLsb' 0 4)]

/-- A 12-bit operand as an ADDRESS of three digits (R87). -/
def addr12Text (v : Addr) : List Char :=
  ['0', 'x', hexChar (v.extractLsb' 8 4), hexChar (v.extractLsb' 4 4), hexChar (v.extractLsb' 0 4)]

/-- The tokens of an instruction's statement in the syntax of R94. -/
def statementTokens (i : Instr) : List (List Char) :=
  (mnemonicText i.mnemonic).toList ::
    match i with
    | .ld rx imm8 => [registerText rx, addr8Text imm8]
    | .mv rx ry => [registerText rx, registerText ry]
    | .add rx ry => [registerText rx, registerText ry]
    | .sub rx ry => [registerText rx, registerText ry]
    | .mult rx ry => [registerText rx, registerText ry]
    | .div rx ry => [registerText rx, registerText ry]
    | .mod rx ry => [registerText rx, registerText ry]
    | .skp rx ry => [registerText rx, registerText ry]
    | .sne rx ry => [registerText rx, registerText ry]
    | .j addr12 => [addr12Text addr12]
    | .call addr12 => [addr12Text addr12]
    | .ret => []
    | .la addr12 => [addr12Text addr12]
    | .sla rx _ => [registerText rx]
    | .sra rx _ => [registerText rx]
    | .wa rx imm8 => [registerText rx, addr8Text imm8]

/-- Source lines: each line's tokens with a space after each, and a newline at its end. -/
def sourceText : List (List (List Char)) → List Char
  | [] => []
  | line :: lines => line.flatMap (fun t => t ++ [' ']) ++ '\n' :: sourceText lines

/-- The instructions the syntax of R94 can express: every register field, a raw index too, has a name R1 to R12, and
SLA and SRA have `ry = 0` (R93). -/
def assemblable : Instr → Bool
  | .ld rx _ => isGpr rx
  | .mv rx ry => isGpr rx && isGpr ry
  | .add rx ry => isGpr rx && isGpr ry
  | .sub rx ry => isGpr rx && isGpr ry
  | .mult rx ry => isGpr rx && isGpr ry
  | .div rx ry => isGpr rx && isGpr ry
  | .mod rx ry => isGpr rx && isGpr ry
  | .skp rx ry => isGpr rx && isGpr ry
  | .sne rx ry => isGpr rx && isGpr ry
  | .j _ => true
  | .call _ => true
  | .ret => true
  | .la _ => true
  | .sla rx ry => isGpr rx && decide (ry = 0)
  | .sra rx ry => isGpr rx && decide (ry = 0)
  | .wa rx _ => isGpr rx

end Sys2Proof.Assembler
end

