-- ==== Sys2Proof/Machine/RomLoader.lean ====
section
/-! DEFINITION. The host loader's reading of a ROM text into the word list of `load` (40_execution_engine.md R134, R135): the
host's job, not the block's. File access itself is out of scope (00_scope.md R7; log 18). -/

namespace Sys2Proof.RomLoader

/-- Why the host loader refuses a ROM text before `load` (R135). -/
inductive RomError where
  /-- A token that is no hex value in 0x0000 to 0xFFFF. -/
  | badToken (token : List Char)
  /-- More than 4096 tokens. -/
  | tooManyTokens (count : Nat)
  deriving DecidableEq, Repr

/-- ROM tokens are separated by white space and newlines (R134). -/
def isRomSeparator (c : Char) : Bool := c == ' ' || c == '\n' || c == '\t' || c == '\r'

/-- The tokens of a ROM text whose characters `acc`, latest first, are already read into the current token. -/
def romSplitFrom (acc : List Char) : List Char → List (List Char)
  | [] => if acc.isEmpty then [] else [acc.reverse]
  | c :: cs =>
    if isRomSeparator c then
      if acc.isEmpty then romSplitFrom [] cs else acc.reverse :: romSplitFrom [] cs
    else romSplitFrom (c :: acc) cs

/-- The value of hex digits, the first the most significant (20_memory.md R52), after digits of value `acc`. -/
def hexValueFrom (acc : Nat) : List Nibble → Nat
  | [] => acc
  | d :: ds => hexValueFrom (acc * 16 + d.toNat) ds

/-- One token, "parsed as an unsigned 16-bit value" (R134, R135). -/
def romWord (t : List Char) : Except RomError Word :=
  match Assembler.hexDigits t with
  | some ds =>
    if ds.isEmpty then .error (.badToken t)
    else if hexValueFrom 0 ds ≤ 0xFFFF then .ok (BitVec.ofNat 16 (hexValueFrom 0 ds))
    else .error (.badToken t)
  | none => .error (.badToken t)

/-- Every token in order, or the first one that is refused. -/
def romWordsOf : List (List Char) → Except RomError (List Word)
  | [] => .ok []
  | t :: ts => do
    let w ← romWord t
    let ws ← romWordsOf ts
    return w :: ws

/-- The word list that the host gives to `load`, or its refusal (R135). -/
def romWords (text : List Char) : Except RomError (List Word) :=
  if memWords < (romSplitFrom [] text).length then .error (.tooManyTokens (romSplitFrom [] text).length)
  else romWordsOf (romSplitFrom [] text)

end Sys2Proof.RomLoader
end

