-- ==== Sys2Proof/Safety.lean ====
section
/-! DEFINITION. The words that claims about the machine are written in: reading and replacing one register, a cycle that
completed, a fault that was taken, a run that ended, the machine's invariant and the control part of the state. Each is
written from the spec's own description, not by way of the operations the meanings use. -/

namespace Sys2Proof

/-! ## Words written out from the encoding tables of 30_encoding.md R73 and R94, unused bits included -/

/-- `oooo xxxx yyyy uuuu`, format RR. -/
def wordRR (op rx ry unused : Nibble) : Word := (op ++ rx ++ ry ++ unused : BitVec (4 + 4 + 4 + 4))

/-- `oooo xxxx iiii iiii`, format RI. -/
def wordRI (op rx : Nibble) (imm8 : Byte) : Word := (op ++ rx ++ imm8 : BitVec (4 + 4 + 8))

/-- `oooo aaaa aaaa aaaa`, format A, and `oooo uuuu uuuu uuuu`, format N. -/
def wordA (op : Nibble) (low : Addr) : Word := (op ++ low : BitVec (4 + 12))

end Sys2Proof

namespace Sys2Proof.Machine

/-! ## Parts of the state, and the ends of a cycle -/

/-- The value of general register `i`: nothing where it is unwritten or names no register (10_state.md R20, R22). -/
def State.reg (s : State) (i : Nibble) : Option Byte :=
  if h : i.toNat < numGpr then s.gpr[i.toNat] else none

/-- The state with general register `i` holding `v`; the state itself where `i` names no register. -/
def State.withReg (s : State) (i : Nibble) (v : Byte) : State :=
  if h : i.toNat < numGpr then { s with gpr := s.gpr.set i.toNat (some v) } else s

/-- The state after a cycle that completed with PC at `pc`: one cycle less in the budget, HaltedNormal when none is left
(40_execution_engine.md R126, R127). -/
def State.completed (s : State) (pc : Word) : State :=
  { s with
    pc := pc
    remaining := s.remaining - 1
    fsm := if s.remaining - 1 = 0 then .haltedNormal else s.fsm }

/-- The state after a fault taken by a handler: nothing but the engine's state and the record changes
(60_exceptions.md R241, R242). -/
def State.faulted (s : State) (c : FaultCause) : State :=
  { s with fsm := .haltedError, fault := some { cause := c, pc := s.pc, ir := s.ir } }

/-- The run has ended (40_execution_engine.md R141). -/
def State.halted (s : State) : Prop := s.fsm = .haltedNormal ∨ s.fsm = .haltedError

/-- The faults of an instruction that reads x[rx], then x[ry], in their order (42_arithmetic.md R162): for each of the two,
the index before the written-ness. -/
def PairReadFaults (rx ry : Nibble) (s : State) (o : Host.Outcome State Fault Refusal) : Prop :=
  (numGpr ≤ rx.toNat → o = .next (s.faulted (.registerIndexFault rx))) ∧
  (rx.toNat < numGpr → s.reg rx = none → o = .next (s.faulted (.unwrittenRead (.gpr rx)))) ∧
  (s.reg rx ≠ none → numGpr ≤ ry.toNat → o = .next (s.faulted (.registerIndexFault ry))) ∧
  (s.reg rx ≠ none → ry.toNat < numGpr → s.reg ry = none → o = .next (s.faulted (.unwrittenRead (.gpr ry))))

/-- The general register that an instruction writes (10_state.md R23). -/
def gprWritten : Instr → Option Nibble
  | .ld rx _ => some rx
  | .mv rx _ => some rx
  | .add rx _ => some rx
  | .sub rx _ => some rx
  | .mult rx _ => some rx
  | .div rx _ => some rx
  | .mod _ _ => none
  | .skp _ _ => none
  | .sne _ _ => none
  | .j _ => none
  | .call _ => none
  | .ret => none
  | .la _ => none
  | .sla rx _ => some rx
  | .sra rx _ => some rx
  | .wa _ _ => none

/-- The indices with which an instruction accesses general registers, in the order of its accesses (10_state.md R22, R23;
42_arithmetic.md R162). SKP, SNE and WA use their indices as values. -/
def gprAccessed : Instr → List Nibble
  | .ld rx _ => [rx]
  | .mv rx ry => [ry, rx]
  | .add rx ry => [rx, ry]
  | .sub rx ry => [rx, ry]
  | .mult rx ry => [rx, ry]
  | .div rx ry => [rx, ry]
  | .mod rx ry => [rx, ry]
  | .skp _ _ => []
  | .sne _ _ => []
  | .j _ => []
  | .call _ => []
  | .ret => []
  | .la _ => []
  | .sla rx ry => [rx, ry]
  | .sra rx ry => [rx, ry]
  | .wa _ _ => []

/-- The instructions that write RF (10_state.md R30, conflict C3). -/
def writesRf (m : Mnemonic) : Prop := m = .mod ∨ m = .sla ∨ m = .sra

/-- PC after a cycle of `i` that completed, with the cycle begun in `s`: the table of 10_state.md R26. -/
def PcAfter (i : Instr) (s : State) (pc : Word) : Prop :=
  match i with
  | .ld _ _ => pc = s.pc + 1
  | .mv _ _ => pc = s.pc + 1
  | .add _ _ => pc = s.pc + 1
  | .sub _ _ => pc = s.pc + 1
  | .mult _ _ => pc = s.pc + 1
  | .div _ _ => pc = s.pc + 1
  | .mod _ _ => pc = s.pc + 1
  | .skp rx ry => pc = if rx = ry then s.pc + 2 else s.pc + 1
  | .sne rx ry => pc = if rx = ry then s.pc + 1 else s.pc + 2
  | .j a => pc = zext 16 a + 1
  | .call a => pc = zext 16 a + 1
  | .ret => ∃ (k : Nat) (h : k < stackSlots) (v : Word), s.sp.toNat = k + 1 ∧ s.stack[k] = some v ∧ pc = v + 1
  | .la _ => pc = s.pc + 1
  | .sla _ _ => pc = s.pc + 1
  | .sra _ _ => pc = s.pc + 1
  | .wa _ _ => pc = s.pc + 1

/-- The bits of a word that its instruction's fields use (30_encoding.md R73, R74): all but bits 3..0 in format RR and
bits 11..0 in format N. -/
def usedBits : Mnemonic → Word
  | .ld => 0xFFFF | .wa => 0xFFFF
  | .j => 0xFFFF | .call => 0xFFFF | .la => 0xFFFF
  | .ret => 0xF000
  | .mv => 0xFFF0 | .add => 0xFFF0 | .sub => 0xFFF0 | .mult => 0xFFF0 | .div => 0xFFF0
  | .mod => 0xFFF0 | .skp => 0xFFF0 | .sne => 0xFFF0 | .sla => 0xFFF0 | .sra => 0xFFF0

/-- The state is about to fetch `w` with no host command before it: Running, PC inside memory, the word written. -/
structure State.Fetches (s : State) (w : Word) : Prop where
  moves : s.hostMoves = []
  running : s.fsm = .running
  inMemory : s.pc.toNat < memWords
  word : s.mem.read (zext 12 s.pc) = some w

/-! ## The invariant, and the control part of the state -/

/-- What holds of every state that the machine reaches from reset. -/
structure State.Inv (s : State) : Prop where
  /-- The memory is in canonical form. -/
  mem : s.mem.wf = true
  /-- The budget is 0 to 4096 (40_execution_engine.md R121). -/
  budget : s.remaining ≤ memWords
  /-- RD and RS stay unwritten (10_state.md R29). -/
  rd : s.rd = none
  rs : s.rs = none
  /-- RM[15:12] = 0 (R28). -/
  rm : ∀ v, s.rm = some v → v.toNat < 0x1000
  /-- RF[15:8] = 0 (R30). -/
  rf : ∀ v, s.rf = some v → v.toNat < 0x100
  /-- SP never exceeds 16 (44_control_transfer.md R198). -/
  sp : s.sp.toNat ≤ stackSlots
  /-- Every slot below SP is written (60_exceptions.md R246). -/
  pushed : ∀ k (h : k < stackSlots), k < s.sp.toNat → s.stack[k] ≠ none
  /-- Every written slot holds the address of a CALL (44_control_transfer.md R193, R197). -/
  slots : ∀ k (h : k < stackSlots) v, s.stack[k] = some v → v.toNat < 0x1000
  /-- PC passes 0x0FFF only by the +1 or +2 of a cycle's end (10_state.md R27). -/
  pc : s.pc.toNat ≤ 0x1001
  /-- In Ready nothing has run: the state is that of reset but for a load (40_execution_engine.md R120). -/
  ready : s.fsm = .ready →
    s = { State.reset with mem := s.mem, remaining := s.remaining, loaded := s.loaded, hostMoves := s.hostMoves }
  /-- Before a load, memory is unwritten and the budget is 0 (R39). -/
  unloaded : s.loaded = false → s.fsm = .ready → s.mem = [] ∧ s.remaining = 0
  /-- A running engine has a cycle left (R120). -/
  running : s.fsm = .running → 0 < s.remaining
  /-- A normal end uses the budget up (R120, R126). -/
  haltedNormal : s.fsm = .haltedNormal → s.remaining = 0
  /-- The record stands exactly in HaltedError (R121). -/
  fault : s.fault ≠ none ↔ s.fsm = .haltedError
  /-- PC names the faulting instruction (60_exceptions.md R251). -/
  faultPc : ∀ r, s.fault = some r → r.pc = s.pc

/-- Two states with the same control part: everything but the contents of the general registers, RM, RD, RS, RF and the
fault record (43_skip.md R183). -/
structure SameControl (s t : State) : Prop where
  pc : s.pc = t.pc
  sp : s.sp = t.sp
  stack : s.stack = t.stack
  ir : s.ir = t.ir
  mem : s.mem = t.mem
  fsm : s.fsm = t.fsm
  remaining : s.remaining = t.remaining
  loaded : s.loaded = t.loaded
  hostMoves : s.hostMoves = t.hostMoves

end Sys2Proof.Machine
end

