-- ==== Sys2Proof/Certificates/Slice0/Obligations.lean ====
section
/-! DEFINITION. The statements for the provers. Each docstring names the rules of spec/ that the statement formalises or
rests on. `exec i s` is the handler and the commit of one cycle whose fetch put the word into IR already; `step` is the
whole machine. "The spec's decision D<n>" marks a choice the spec itself makes in 92_eei_decisions.md. -/

open Sys2Proof Sys2Proof.Machine

/-! ## Encoding and decoding -/

/-- Words written out bit by bit from R94, and what they decode to (95_test_vectors.md, 2.1). All opcodes but those of LD
and ADD are the spec's decision D1 (log 3). -/
def Obligations.SpecWordsDecode : Prop :=
  decode 0b0000000000001010 = .ok (.ld 0 0x0A) ∧ decode 0b0010000000010011 = .ok (.add 0 1) ∧
  decode 0b1010101111001101 = .ok (.call 0xBCD) ∧ decode 0b1011000100100011 = .ok .ret ∧
  decode 0b1101001011110000 = .ok (.sla 2 15) ∧ decode 0b1111111111111111 = .ok (.wa 15 0xFF) ∧
  decode 0b0111001100110000 = .ok (.skp 3 3) ∧ decode 0b1100000100100011 = .ok (.la 0x123)

/-- The map of R76: each nibble's mnemonic, and each mnemonic's nibble; a bijection with LD at 0x0 and ADD at 0x2. The
other fourteen values are the spec's decision D1. -/
def Obligations.OpcodeMapOfSpec : Prop :=
  opcodeMap.Lawful ∧
  (List.range 16).map (fun n => mnemonicOf (BitVec.ofNat 4 n)) =
    [some .ld, some .mv, some .add, some .sub, some .mult, some .div, some .mod, some .skp,
     some .sne, some .j, some .call, some .ret, some .la, some .sla, some .sra, some .wa]

/-- Decode and encode agree for every instruction, with every operand at every value of its field, over every opcode map
whose handlers answer its codes (R81; D1 asks that claims about words be stated over the map). -/
def Obligations.DecodeEncodeRoundTrip : Prop :=
  ∀ m : OpcodeMap, (∀ n, m.handler (m.code n) = some n) → ∀ i : Instr, decodeWith m (encodeWith m i) = .ok i

/-- Every one of the 65536 words decodes, and encoding what it decodes to gives the word back with its unused bits 0
(R72, R78, R79, R81). -/
def Obligations.EncodeDecodeClearsUnusedBits : Prop :=
  ∀ w : Word, ∃ i : Instr, decode w = .ok i ∧ encode i = w &&& usedBits i.mnemonic

/-- Two words that agree on the opcode and on the bits its format uses decode to one instruction, so that a step runs that
instruction on either word, from states that differ in nothing but IR and memory (R78). -/
def Obligations.UnusedBitsHaveNoEffect : Prop :=
  ∀ (v w : Word) (i : Instr), decode v = .ok i → v &&& usedBits i.mnemonic = w &&& usedBits i.mnemonic →
    decode w = .ok i ∧
    ∀ s t : State, s.Fetches v → t.Fetches w → t = { s with mem := t.mem } →
      step s = exec i { s with ir := some v } ∧ step t = exec i { s with ir := some w, mem := t.mem }

/-! ## Operand access -/

/-- ReadGPR (R131). The two faults are the spec's decisions D2 and D3. -/
def Obligations.ReadGprChecksIndexThenValue : Prop :=
  ∀ (s : State) (i : Nibble),
    (12 ≤ i.toNat → readGpr s i = .error (.registerIndexFault i)) ∧
    ∀ h : i.toNat < 12,
      (s.gpr[i.toNat] = none → readGpr s i = .error (.unwrittenRead (.gpr i))) ∧
      (∀ v, s.gpr[i.toNat] = some v → readGpr s i = .ok v)

/-- WriteGPR (R132): the staged state holds the value in register `i`, every other register and all else as before. A write
to an unwritten register is legal. -/
def Obligations.WriteGprStagesOneRegister : Prop :=
  ∀ (s : State) (i : Nibble) (v : Byte),
    (12 ≤ i.toNat → writeGpr s i v = .error (.registerIndexFault i)) ∧
    (i.toNat < 12 → ∃ t, writeGpr s i v = .ok t ∧ t.reg i = some v ∧ (∀ k, k ≠ i → t.reg k = s.reg k) ∧
      { t with gpr := s.gpr } = s)

/-! ## Register transfer and arithmetic -/

/-- LD (41_register_transfer.md, LD): the value in x[rx], all else as before but for the end of the cycle; an index of 12 to
15 faults. -/
def Obligations.LdWritesImmediate : Prop :=
  ∀ (rx : Nibble) (imm8 : Byte) (s : State),
    decode (wordRI 0x0 rx imm8) = .ok (.ld rx imm8) ∧
    (rx.toNat < 12 → exec (.ld rx imm8) s = .next ((s.withReg rx imm8).completed (s.pc + 1))) ∧
    (12 ≤ rx.toNat → exec (.ld rx imm8) s = .next (s.faulted (.registerIndexFault rx)))

/-- MV (R151): x[ry] copied to x[rx]; the index of ry, then its written-ness, then the index of rx are checked. The opcode
is the spec's decision D1 (log 3). -/
def Obligations.MvCopiesRegister : Prop :=
  ∀ (rx ry u : Nibble) (s : State),
    decode (wordRR 0x1 rx ry u) = .ok (.mv rx ry) ∧
    (12 ≤ ry.toNat → exec (.mv rx ry) s = .next (s.faulted (.registerIndexFault ry))) ∧
    (ry.toNat < 12 → s.reg ry = none → exec (.mv rx ry) s = .next (s.faulted (.unwrittenRead (.gpr ry)))) ∧
    (s.reg ry ≠ none → 12 ≤ rx.toNat → exec (.mv rx ry) s = .next (s.faulted (.registerIndexFault rx))) ∧
    (∀ v, s.reg ry = some v → rx.toNat < 12 →
      exec (.mv rx ry) s = .next ((s.withReg rx v).completed (s.pc + 1)))

/-- ADD (R162): the sum modulo 256 in x[rx], all else as before but for the end of the cycle; the four faults in order. -/
def Obligations.AddWritesSum : Prop :=
  ∀ (rx ry u : Nibble) (s : State),
    decode (wordRR 0x2 rx ry u) = .ok (.add rx ry) ∧
    PairReadFaults rx ry s (exec (.add rx ry) s) ∧
    (∀ a b, s.reg rx = some a → s.reg ry = some b →
      exec (.add rx ry) s =
        .next ((s.withReg rx (BitVec.ofNat 8 ((a.toNat + b.toNat) % 256))).completed (s.pc + 1)))

/-- SUB (R163): the difference modulo 256, `a − b + 256` when `a < b`. The opcode and the unsigned reading are the spec's
decisions D1 and D5 (log 3, log 5). -/
def Obligations.SubWritesDifference : Prop :=
  ∀ (rx ry u : Nibble) (s : State),
    decode (wordRR 0x3 rx ry u) = .ok (.sub rx ry) ∧
    PairReadFaults rx ry s (exec (.sub rx ry) s) ∧
    (∀ a b, s.reg rx = some a → s.reg ry = some b →
      exec (.sub rx ry) s =
        .next ((s.withReg rx (BitVec.ofNat 8
          (if b.toNat ≤ a.toNat then a.toNat - b.toNat else a.toNat + 256 - b.toNat))).completed (s.pc + 1)))

/-- MULT (R164): the low 8 bits of the product. The opcode and the unsigned reading are the spec's decisions D1 and D5
(log 3, log 5). -/
def Obligations.MultWritesLowProduct : Prop :=
  ∀ (rx ry u : Nibble) (s : State),
    decode (wordRR 0x4 rx ry u) = .ok (.mult rx ry) ∧
    PairReadFaults rx ry s (exec (.mult rx ry) s) ∧
    (∀ a b, s.reg rx = some a → s.reg ry = some b →
      exec (.mult rx ry) s =
        .next ((s.withReg rx (BitVec.ofNat 8 (a.toNat * b.toNat % 256))).completed (s.pc + 1)))

/-- DIV (R165, R161): the floor of the quotient; a zero divisor raises ArithmeticFault after both reads and writes
nothing. The opcode and the unsigned reading are the spec's decisions D1 and D5 (log 3, log 5). -/
def Obligations.DivWritesQuotient : Prop :=
  ∀ (rx ry u : Nibble) (s : State),
    decode (wordRR 0x5 rx ry u) = .ok (.div rx ry) ∧
    PairReadFaults rx ry s (exec (.div rx ry) s) ∧
    (∀ a, s.reg rx = some a → s.reg ry = some 0 →
      exec (.div rx ry) s = .next (s.faulted (.arithmeticFault .div))) ∧
    (∀ a b, s.reg rx = some a → s.reg ry = some b → b ≠ 0 →
      ∃ q : Byte, q.toNat = a.toNat / b.toNat ∧
        exec (.div rx ry) s = .next ((s.withReg rx q).completed (s.pc + 1)))

/-- MOD (R166, R161): RF takes the remainder, zero-extended; no general register is written. The opcode and the unsigned
reading are the spec's decisions D1 and D5 (log 3, log 5). -/
def Obligations.ModWritesRemainderToRf : Prop :=
  ∀ (rx ry u : Nibble) (s : State),
    decode (wordRR 0x6 rx ry u) = .ok (.mod rx ry) ∧
    PairReadFaults rx ry s (exec (.mod rx ry) s) ∧
    (∀ a, s.reg rx = some a → s.reg ry = some 0 →
      exec (.mod rx ry) s = .next (s.faulted (.arithmeticFault .mod))) ∧
    (∀ a b, s.reg rx = some a → s.reg ry = some b → b ≠ 0 →
      ∃ r : Word, r.toNat = a.toNat % b.toNat ∧
        exec (.mod rx ry) s = .next (({ s with rf := some r } : State).completed (s.pc + 1)))

/-! ## Skips and control transfer -/

/-- SKP and SNE (43_skip.md): they compare the raw indices, 12 to 15 included, and read no register, so that exactly one of
them skips; PC alone changes but for the end of the cycle. The opcodes are the spec's decision D1 (log 3). -/
def Obligations.SkipsCompareIndices : Prop :=
  ∀ (rx ry u : Nibble) (s : State),
    decode (wordRR 0x7 rx ry u) = .ok (.skp rx ry) ∧ decode (wordRR 0x8 rx ry u) = .ok (.sne rx ry) ∧
    exec (.skp rx ry) s = .next (s.completed (if rx = ry then s.pc + 2 else s.pc + 1)) ∧
    exec (.sne rx ry) s = .next (s.completed (if rx = ry then s.pc + 1 else s.pc + 2))

/-- J (44_control_transfer.md, J): the next PC is addr12 + 1, at least 1 and at most 0x1000; nothing else changes but for the
end of the cycle. The opcode is the spec's decision D1 (log 3). -/
def Obligations.JumpLandsAfterTarget : Prop :=
  ∀ (a : Addr) (s : State),
    decode (wordA 0x9 a) = .ok (.j a) ∧
    ∃ p : Word, p.toNat = a.toNat + 1 ∧ exec (.j a) s = .next (s.completed p)

/-- CALL (44_control_transfer.md, CALL): with SP below 16 the address of the CALL itself goes to stack[SP], SP is incremented
and the next PC is addr12 + 1; with SP of 16 or more StackIndexFault. The opcode and the fault are the spec's decisions D1
and D12 (log 3). -/
def Obligations.CallPushesOwnAddress : Prop :=
  ∀ (a : Addr) (s : State),
    decode (wordA 0xA a) = .ok (.call a) ∧
    (∀ h : s.sp.toNat < 16, ∃ p : Word, p.toNat = a.toNat + 1 ∧
      exec (.call a) s =
        .next (({ s with stack := s.stack.set s.sp.toNat (some s.pc) h, sp := s.sp + 1 } : State).completed p)) ∧
    (16 ≤ s.sp.toNat → exec (.call a) s = .next (s.faulted (.stackIndexFault .call s.sp)))

/-- RET (44_control_transfer.md, RET): SP minus 1, then the PC after that of stack[SP]; the slot keeps its value. At SP = 0
and SP above 16 StackIndexFault with the index SP − 1 modulo 256; at an unwritten slot UnwrittenRead. The opcode and the
faults are the spec's decisions D1, D3 and D12 (log 3). -/
def Obligations.RetReturnsAfterPushedAddress : Prop :=
  ∀ (u : Addr) (s : State),
    decode (wordA 0xB u) = .ok .ret ∧
    (s.sp.toNat = 0 → exec .ret s = .next (s.faulted (.stackIndexFault .ret 255))) ∧
    (16 < s.sp.toNat → exec .ret s = .next (s.faulted (.stackIndexFault .ret (s.sp - 1)))) ∧
    (∀ (k : Nat) (h : k < 16), s.sp.toNat = k + 1 →
      (s.stack[k] = none → exec .ret s = .next (s.faulted (.unwrittenRead (.stack (BitVec.ofNat 8 k))))) ∧
      (∀ v, s.stack[k] = some v →
        exec .ret s = .next (({ s with sp := BitVec.ofNat 8 k } : State).completed (v + 1))))

/-! ## Load address, shifts and store -/

/-- LA (45_load_address.md): RM takes the zero-extended address; memory is not accessed and nothing else changes but for the
end of the cycle. The opcode is the spec's decision D1 (log 3). -/
def Obligations.LaWritesRm : Prop :=
  ∀ (a : Addr) (s : State),
    decode (wordA 0xC a) = .ok (.la a) ∧
    ∃ v : Word, v.toNat = a.toNat ∧
      exec (.la a) s = .next (({ s with rm := some v } : State).completed (s.pc + 1))

/-- SLA (46_shift.md, SLA; R225): `a × 2^n` for the whole value `n` of x[ry], truncated to 8 bits, in x[rx], and bit 7 of
that result in RF. The opcode and the range of the amount are the spec's decisions D1 and D7 (log 3, log 5). -/
def Obligations.SlaShiftsByRegisterValue : Prop :=
  ∀ (rx ry u : Nibble) (s : State),
    decode (wordRR 0xD rx ry u) = .ok (.sla rx ry) ∧
    PairReadFaults rx ry s (exec (.sla rx ry) s) ∧
    (∀ a n, s.reg rx = some a → s.reg ry = some n →
      ∃ r : Byte, r.toNat = a.toNat * 2 ^ n.toNat % 256 ∧
        exec (.sla rx ry) s =
          .next (({ s.withReg rx r with rf := some (if 128 ≤ r.toNat then 1 else 0) } : State).completed (s.pc + 1)))

/-- SRA (46_shift.md, SRA; R225), with the zero fill the spec takes (its decision D6): `floor(a / 2^n)` in x[rx], and bit 7
of that result in RF. The opcode and the range of the amount are the spec's decisions D1 and D7 (log 3, log 5). -/
def Obligations.SraShiftsByRegisterValue : Prop :=
  ∀ (rx ry u : Nibble) (s : State),
    decode (wordRR 0xE rx ry u) = .ok (.sra rx ry) ∧
    PairReadFaults rx ry s (exec (.sra rx ry) s) ∧
    (∀ a n, s.reg rx = some a → s.reg ry = some n →
      ∃ r : Byte, r.toNat = a.toNat / 2 ^ n.toNat ∧
        exec (.sra rx ry) s =
          .next (({ s.withReg rx r with rf := some (if 128 ≤ r.toNat then 1 else 0) } : State).completed (s.pc + 1)))

/-- The alternative `SRA_FILL = sign` (46_shift.md R221): the copies of bit 7 fill the vacated bits, for n of 7 or more the
result is 0xFF or 0x00 by bit 7, bit 7 of the result is bit 7 of the operand, and the two fills differ exactly where bit 7
is set and n is at least 1. -/
def Obligations.SraFillsCompared : Prop :=
  ∀ a n : Byte,
    (shiftRight .sign a n).msb = a.msb ∧
    (7 ≤ n.toNat → shiftRight .sign a n = if a.msb then 0xFF else 0x00) ∧
    (∀ k, k + n.toNat < 8 → (shiftRight .sign a n).getLsbD k = a.getLsbD (k + n.toNat)) ∧
    (shiftRight .sign a n = shiftRight .zero a n ↔ ¬(a.msb = true ∧ 1 ≤ n.toNat))

/-- WA (47_store.md): the zero-extended raw index goes to the word at imm8, every other word and everything else is as before
but for the end of the cycle; no fault, whatever the index and the registers. The opcode is the spec's decision D1 (log
3). -/
def Obligations.WaStoresIndex : Prop :=
  ∀ (rx : Nibble) (imm8 : Byte) (s : State),
    decode (wordRI 0xF rx imm8) = .ok (.wa rx imm8) ∧ (storeAddr imm8).toNat = imm8.toNat ∧
    ∃ t, exec (.wa rx imm8) s = .next t ∧
      t.mem.read (storeAddr imm8) = some (zext 16 rx) ∧
      (∀ a, a ≠ storeAddr imm8 → t.mem.read a = s.mem.read a) ∧
      { t with mem := s.mem } = s.completed (s.pc + 1)

/-! ## The cycle -/

/-- A step runs the decoded instruction (40_execution_engine.md R122 to R124): at a state about to fetch `w`, the step is
`exec` of what `w` decodes to, on the state with `w` in IR. That it is so too when the host's next move is `idle`, which
the same step takes, is the model's choice (log 6): the list of moves and its `idle` are the model's own. -/
def Obligations.StepRunsDecodedInstruction : Prop :=
  ∀ (s : State) (w : Word) (i : Instr), s.Fetches w → decode w = .ok i →
    step s = exec i { s with ir := some w } ∧
    ∀ rest, step { s with hostMoves := .idle :: rest } = exec i { s with ir := some w, hostMoves := rest }

/-- Fetch (R53, R123): PC of 0x1000 or more, then an unwritten word, end the run with IR kept and no IR in the record;
otherwise the word is read and goes to IR. -/
def Obligations.FetchReadsOrFaults : Prop :=
  ∀ s : State, s.hostMoves = [] → s.fsm = .running →
    (0x1000 ≤ s.pc.toNat →
      step s = .next { s with fsm := .haltedError, fault := some ⟨.fetchAddressFault s.pc, s.pc, none⟩ }) ∧
    (s.pc.toNat < 0x1000 → s.mem.read (zext 12 s.pc) = none →
      step s = .next { s with fsm := .haltedError, fault := some ⟨.unwrittenRead (.mem s.pc), s.pc, none⟩ }) ∧
    (s.pc.toNat < 0x1000 → ∀ w, s.mem.read (zext 12 s.pc) = some w → ∃ t, step s = .next t ∧ t.ir = some w)

/-- InvalidOpcode (R243): under the spec's map no word raises it, and a map that leaves a nibble without a handler raises it
at dispatch, after the fetch put the word into IR. -/
def Obligations.InvalidOpcodeOnlyWithoutHandler : Prop :=
  (∀ w op, decode w ≠ .error (.invalidOpcode op)) ∧
  ∀ (m : OpcodeMap) (s : State) (w : Word), fetch s = .ok w → m.handler (w.extractLsb' 12 4) = none →
    cycleWith m s = .next { s with
      ir := some w
      fsm := .haltedError
      fault := some ⟨.invalidOpcode (w.extractLsb' 12 4), s.pc, some w⟩ }

/-- The effect of a fault (R241, R242): a step of the block that ends in HaltedError changes nothing but the engine's state,
the record and IR; the record names PC and the cause; a fetch fault keeps IR and records none, any other records the
fetched word, which is in IR. -/
def Obligations.FaultsArePrecise : Prop :=
  ∀ s t : State, s.hostMoves = [] → s.fsm = .running → step s = .next t → t.fsm = .haltedError →
    ∃ r : FaultRecord, t = { s with ir := t.ir, fsm := .haltedError, fault := some r } ∧ r.pc = s.pc ∧
      ((t.ir = s.ir ∧ r.ir = none ∧ (r.code = 5 ∨ r.cause = .unwrittenRead (.mem s.pc))) ∨
       (∃ w, s.Fetches w ∧ t.ir = some w ∧ r.ir = some w ∧ r.code ≠ 5 ∧ r.cause ≠ .unwrittenRead (.mem s.pc)))

/-- A cycle is all or nothing (00_scope.md R14, 40_execution_engine.md R127): either a fault on an otherwise unchanged state,
or a completed cycle, which leaves the fault record, IR, RD, RS, the load flag and the host's moves alone. -/
def Obligations.CycleIsAllOrNothing : Prop :=
  ∀ (i : Instr) (s : State),
    (∃ c, exec i s = .next (s.faulted c)) ∨
    (∃ t, exec i s = .next t ∧ PcAfter i s t.pc ∧ t.remaining = s.remaining - 1 ∧
      t.fsm = (if s.remaining - 1 = 0 then .haltedNormal else s.fsm) ∧ t.fault = s.fault ∧ t.ir = s.ir ∧
      t.rd = s.rd ∧ t.rs = s.rs ∧ t.loaded = s.loaded ∧ t.hostMoves = s.hostMoves)

/-- Who writes what (10_state.md R23, R28, R29, R30, R32, R34; 20_memory.md R51): a general register only by the
instructions whose destination it is, RM only by LA, RF only by MOD, SLA and SRA, the call stack only by CALL and there
only slot SP, SP only by CALL and RET, a memory word only by WA and there only the word at imm8, RD and RS never. -/
def Obligations.WritersOfEachElement : Prop :=
  ∀ (i : Instr) (s t : State), exec i s = .next t →
    (∀ k, gprWritten i ≠ some k → t.reg k = s.reg k) ∧
    (t.rm ≠ s.rm → i.mnemonic = .la) ∧
    (t.rf ≠ s.rf → writesRf i.mnemonic) ∧
    (∀ k (h : k < stackSlots), t.stack[k] ≠ s.stack[k] → i.mnemonic = .call ∧ k = s.sp.toNat) ∧
    (t.sp ≠ s.sp → i.mnemonic = .call ∨ i.mnemonic = .ret) ∧
    (∀ a, t.mem.read a ≠ s.mem.read a → ∃ rx imm8, i = .wa rx imm8 ∧ a = storeAddr imm8) ∧
    t.rd = s.rd ∧ t.rs = s.rs

/-- Register indices (10_state.md R22, 30_encoding.md R79, 40_execution_engine.md R131 to R133): an instruction is ill formed
exactly when it accesses an index of 12 to 15. Such an instruction never completes: its fault is that of the first of its
accesses that cannot be made, RegisterIndexFault with that index if it is 12 to 15, and the UnwrittenRead of that register
only if it is below 12 and unwritten. A well-formed instruction never raises RegisterIndexFault. -/
def Obligations.OnlyBadIndicesRaiseRegisterIndexFault : Prop :=
  ∀ (i : Instr) (s : State),
    (i.wellFormed = false ↔ ∃ k ∈ gprAccessed i, 12 ≤ k.toNat) ∧
    (i.wellFormed = false → ∃ before k after, gprAccessed i = before ++ k :: after ∧ (∀ j ∈ before, s.reg j ≠ none) ∧
      ((12 ≤ k.toNat ∧ exec i s = .next (s.faulted (.registerIndexFault k))) ∨
       (k.toNat < 12 ∧ s.reg k = none ∧ exec i s = .next (s.faulted (.unwrittenRead (.gpr k)))))) ∧
    (i.wellFormed = true → ∀ k, exec i s ≠ .next (s.faulted (.registerIndexFault k)))

/-- Every step answers a next state: no word is refused and no fault leaves the machine without a state (40_execution_engine.md
R127, R129; 30_encoding.md R79). That a step with no enabled transition stays where it is, is the model's choice (log 8). -/
def Obligations.StepAlwaysAnswers : Prop :=
  ∀ s : State, ∃ t, step s = .next t

/-- The codes of the fault kinds (60_exceptions.md R240; the spec's decision D10). -/
def Obligations.FaultCodes : Prop :=
  ∀ (c : FaultCause) (pc : Word) (ir : Option Word),
    (FaultRecord.mk c pc ir).code = match c with
      | .invalidOpcode _ => 1
      | .arithmeticFault _ => 2
      | .registerIndexFault _ => 3
      | .stackIndexFault _ _ => 4
      | .fetchAddressFault _ => 5
      | .unwrittenRead _ => 6

/-! ## Reset and the host interface -/

/-- The state after reset (R39): every element at the value of the table, the host's moves (the model's own field) aside.
The spec grounds them in its source and in its decisions D3, D4, D10 and D15. -/
def Obligations.ResetValues : Prop :=
  (∀ k (h : k < 12), State.reset.gpr[k] = none) ∧ State.reset.pc = 0x0000 ∧ State.reset.rm = none ∧
  State.reset.rd = none ∧ State.reset.rs = none ∧ State.reset.rf = none ∧ State.reset.sp = 0x00 ∧
  (∀ k (h : k < 16), State.reset.stack[k] = none) ∧ State.reset.ir = none ∧
  (∀ a, State.reset.mem.read a = none) ∧ State.reset.fsm = .ready ∧ State.reset.remaining = 0 ∧
  State.reset.fault = none

/-- `reset` in any state puts the block into the state after reset (R270). The list of the host's moves (log 6), and that
the later ones stay (log 22), are the model's choice. -/
def Obligations.ResetFromAnyState : Prop :=
  ∀ (s : State) (rest : List HostMove), s.hostMoves = .reset :: rest →
    step s = .next { State.reset with hostMoves := rest }

/-- `load` in Ready, once after reset, with at most 4096 words (R138): the words lie from address 0x000 on, every other word
stays unwritten, the budget is their number, and the rest of the state is as it was. The host's later moves stay to come;
their list is the model's choice (log 6). -/
def Obligations.LoadFillsMemoryAndBudget : Prop :=
  ∀ (s : State) (ws : List Word) (rest : List HostMove), s.Inv → s.hostMoves = .load ws :: rest →
    s.fsm = .ready → s.loaded = false → ws.length ≤ 4096 →
    ∃ t, step s = .next t ∧ (∀ a : Addr, t.mem.read a = ws[a.toNat]?) ∧ t.remaining = ws.length ∧ t.loaded = true ∧
      t.hostMoves = rest ∧ { t with mem := s.mem, remaining := s.remaining, loaded := s.loaded, hostMoves := s.hostMoves } = s

/-- `run` in Ready (40_execution_engine.md R139): straight to HaltedNormal with no cycle when the budget is 0, else Running;
without a load since reset (under the invariant, which every step keeps) always straight to HaltedNormal, a run of 0
cycles. That cycles then follow until the run ends, is RunEndsWithinBudget. The list of the host's moves is the model's
choice (log 6). -/
def Obligations.RunStartsOrEndsAtOnce : Prop :=
  ∀ (s : State) (rest : List HostMove), s.hostMoves = .run :: rest → s.fsm = .ready →
    step s = .next { s with hostMoves := rest, fsm := if s.remaining = 0 then .haltedNormal else .running } ∧
    (s.Inv → s.loaded = false → step s = .next { s with hostMoves := rest, fsm := .haltedNormal })

/-- A command outside its allowed states has no effect and no transition (40_execution_engine.md R134, R137): `load` out of
Ready or after a load, and `run` out of Ready. That the block itself refuses a `load` of more than 4096 words is read from
the guard of R120 (log 19): by R135 the host's loader refuses such a list before the block sees it. The list of the host's
moves is the model's choice (log 6). -/
def Obligations.RefusedCommandsDoNothing : Prop :=
  ∀ (s : State) (rest : List HostMove),
    (∀ ws, s.hostMoves = .load ws :: rest → (s.fsm ≠ .ready ∨ s.loaded = true ∨ 4096 < ws.length) →
      step s = .next { s with hostMoves := rest }) ∧
    (s.hostMoves = .run :: rest → s.fsm ≠ .ready → step s = .next { s with hostMoves := rest })

/-- The halted states are left by `reset` alone, and in Ready no cycle runs (40_execution_engine.md R129). That the machine's
step then leaves the state as it is but for the host's move taken, is the model's choice (log 6, log 8). -/
def Obligations.HaltedStatesAbsorb : Prop :=
  ∀ s : State,
    (s.halted → s.hostMoves.head? ≠ some .reset → step s = .next { s with hostMoves := s.hostMoves.tail }) ∧
    (s.fsm = .ready → s.hostMoves.head? ∈ [none, some .idle] → step s = .next { s with hostMoves := s.hostMoves.tail })

/-- `observe` (40_execution_engine.md R140): each element's value, or no value where it is unwritten. That the view holds IR
follows R140 against 10_state.md R36, which is the model's choice (log 24). -/
def Obligations.ObserveShowsEveryElement : Prop :=
  ∀ s : State,
    (observe s).fsm = s.fsm ∧ (observe s).fault = s.fault ∧ (observe s).gpr = s.gpr ∧ (observe s).rm = s.rm ∧
    (observe s).rd = s.rd ∧ (observe s).rs = s.rs ∧ (observe s).rf = s.rf ∧ (observe s).pc = s.pc ∧
    (observe s).sp = s.sp ∧ (observe s).stack = s.stack ∧ (observe s).ir = s.ir ∧
    (observe s).memory.length = 4096 ∧ ∀ a : Addr, (observe s).memory[a.toNat]? = some (s.mem.read a)

/-! ## The invariant -/

/-- The invariant holds after reset. -/
def Obligations.ResetMeetsInvariant : Prop := State.reset.Inv

/-- Every step keeps the invariant: the memory's canonical form (the model's, log 11), the budget's range, RD and RS
unwritten, RM and RF zero-extended, SP at most 16 with every slot below it holding the address of a CALL, PC at most
0x1001, and the engine's bookkeeping (10_state.md R27 to R37, 40_execution_engine.md R120, R121, 44_control_transfer.md
R193, R197, R198). -/
def Obligations.StepKeepsInvariant : Prop :=
  ∀ s t : State, s.Inv → step s = .next t → t.Inv

/-- Under the invariant RET faults only by underflow at SP = 0, never on an unwritten slot, and CALL only with 16 calls
outstanding (44_control_transfer.md R194, R198; 60_exceptions.md R246). -/
def Obligations.StackFaultsAreUnderflowAndOverflow : Prop :=
  ∀ s : State, s.Inv →
    (∀ c, exec .ret s = .next (s.faulted c) ↔ (s.sp = 0 ∧ c = .stackIndexFault .ret 255)) ∧
    (∀ a c, exec (.call a) s = .next (s.faulted c) ↔ (s.sp = 16 ∧ c = .stackIndexFault .call 16))

/-- No completed cycle leaves PC at 0x000 (70_reset_and_hazards.md R277, 44_control_transfer.md R191): a step of the block
that does not fault ends with PC from 1 to 0x1001. -/
def Obligations.NoCycleLandsOnAddressZero : Prop :=
  ∀ s t : State, s.Inv → s.fsm = .running → s.hostMoves = [] → step s = .next t → t.fsm ≠ .haltedError →
    1 ≤ t.pc.toNat ∧ t.pc.toNat ≤ 0x1001

/-! ## Runs -/

/-- The budget counts the cycles (40_execution_engine.md R126, R129, R141): from Running with `n` cycles left and no command
from the host, after `k ≤ n` steps either a fault has ended the run, or exactly `n − k` cycles are left, Running while that
is positive and HaltedNormal when it is 0. So every run ends within its budget, and one that ends in HaltedNormal executed
exactly `n` cycles. -/
def Obligations.RunEndsWithinBudget : Prop :=
  ∀ (s : State) (k : Nat), s.fsm = .running → s.hostMoves = [] → 0 < s.remaining → k ≤ s.remaining →
    ∃ t, Host.Core.run core k s = .next t ∧
      ((t.fsm = .haltedError ∧ s.remaining - k ≤ t.remaining) ∨
       (t.remaining = s.remaining - k ∧ t.fsm = if k = s.remaining then .haltedNormal else .running))

/-- Control flow does not depend on data (43_skip.md R183): two runs that start with the same control part, whatever their
general registers, RM, RD, RS and RF hold, and whatever the host does in both, have after any number of steps the same
control part (PC, SP, call stack, IR, memory, engine state, budget), unless one of them is then stopped by a fault. -/
def Obligations.ControlFlowIgnoresRegisters : Prop :=
  ∀ (k : Nat) (s t s' t' : State), SameControl s t →
    Host.Core.run core k s = .next s' → Host.Core.run core k t = .next t' →
    s'.fsm ≠ .haltedError → t'.fsm ≠ .haltedError → SameControl s' t'

/-- A CALL and its matching RET (44_control_transfer.md R196): if a CALL is executed, then `k` steps during which SP stays
above its value before the CALL, ending with SP as the CALL left it at a RET, that RET resumes at the CALL's address + 1
with SP as before the CALL. -/
def Obligations.MatchingRetResumesAfterCall : Prop :=
  ∀ (s s₁ s₂ s₃ : State) (w v : Word) (a : Addr) (k : Nat),
    s.Fetches w → decode w = .ok (.call a) → step s = .next s₁ →
    (∀ j ≤ k, ∀ u, Host.Core.run core j s₁ = .next u → u.fsm = .running ∧ s.sp.toNat < u.sp.toNat) →
    Host.Core.run core k s₁ = .next s₂ → s₂.sp = s₁.sp → s₂.Fetches v → decode v = .ok .ret →
    step s₂ = .next s₃ → s₃.pc = s.pc + 1 ∧ s₃.sp = s.sp

/-- A store is seen by the very next fetch (20_memory.md R62, 47_store.md R230): a WA at `p` that stores to `p + 1` is followed
by the instruction the stored word decodes to, LD R1 with the index as its value. -/
def Obligations.StoredWordIsFetchedNext : Prop :=
  ∀ (s t : State) (w : Word) (rx : Nibble) (imm8 : Byte),
    s.Fetches w → decode w = .ok (.wa rx imm8) → imm8.toNat = s.pc.toNat + 1 → step s = .next t → t.fsm = .running →
    ∃ t', step t = .next t' ∧ t'.ir = some (zext 16 rx) ∧ t'.reg 0 = some (zext 8 rx) ∧ t'.pc = s.pc + 2

/-! ## Assembler and loader -/

/-- The assembler and the block agree bit for bit on every field layout (00_scope.md R6; 30_encoding.md R86 to R88, R94): the
statements of any list of instructions that the syntax can express assemble to their encodings, in order. -/
def Obligations.AssemblerAgreesWithEncoder : Prop :=
  ∀ is : List Instr, (∀ i ∈ is, Assembler.assemblable i = true) →
    Assembler.assemble (Assembler.sourceText (is.map Assembler.statementTokens)) = .ok (is.map encode)

/-- The assembler's output lines are valid ROM tokens (40_execution_engine.md R136): the loader reads back exactly the words,
up to the 4096 that the memory holds (R135). -/
def Obligations.AssemblerOutputLoads : Prop :=
  ∀ ws : List Word,
    (ws.length ≤ 4096 → RomLoader.romWords (Assembler.outputText ws) = .ok ws) ∧
    (4096 < ws.length → RomLoader.romWords (Assembler.outputText ws) = .error (.tooManyTokens ws.length))
end

