-- ==== Sys2Proof/Laws/Decode.lean ====
section
/-! SUPPORT. The fields of each format's word, and the opcode map. -/

namespace Sys2Proof

/-! ## Concatenation and field extraction as arithmetic -/

/-- The value of a concatenation, the first part in the high bits (00_scope.md R11). -/
theorem toNat_append_eq {m n : Nat} (x : BitVec m) (y : BitVec n) : (x ++ y).toNat = x.toNat * 2 ^ n + y.toNat := by
  rw [BitVec.toNat_append, ← Nat.shiftLeft_add_eq_or_of_lt y.isLt, Nat.shiftLeft_eq]

/-- The value of a bit field (00_scope.md R10). -/
theorem toNat_field {n : Nat} (w : BitVec n) (lo len : Nat) : (w.extractLsb' lo len).toNat = w.toNat / 2 ^ lo % 2 ^ len := by
  rw [BitVec.extractLsb'_toNat, Nat.shiftRight_eq_div_pow]

theorem toNat_formatRR (op rx ry : Nibble) :
    (formatRR op rx ry).toNat = op.toNat * 4096 + rx.toNat * 256 + ry.toNat * 16 := by
  have zero : (0 : Nibble).toNat = 0 := rfl
  simp only [formatRR, toNat_append_eq, zero]
  omega

theorem toNat_formatRI (op rx : Nibble) (imm8 : Byte) :
    (formatRI op rx imm8).toNat = op.toNat * 4096 + rx.toNat * 256 + imm8.toNat := by
  simp only [formatRI, toNat_append_eq]
  omega

theorem toNat_formatA (op : Nibble) (addr12 : Addr) : (formatA op addr12).toNat = op.toNat * 4096 + addr12.toNat := by
  simp only [formatA, toNat_append_eq]
  omega

theorem toNat_formatN (op : Nibble) : (formatN op).toNat = op.toNat * 4096 := by
  have zero : (0 : Addr).toNat = 0 := rfl
  simp only [formatN, toNat_append_eq, zero]
  omega

/-! ## The fields of a word built by a format (30_encoding.md R71, R73) -/

@[simp] theorem op_formatRR (op rx ry : Nibble) : (fieldsOf (formatRR op rx ry)).op = op := by
  apply BitVec.eq_of_toNat_eq; simp only [fieldsOf, toNat_field, toNat_formatRR]; omega

@[simp] theorem rx_formatRR (op rx ry : Nibble) : (fieldsOf (formatRR op rx ry)).rx = rx := by
  apply BitVec.eq_of_toNat_eq; simp only [fieldsOf, toNat_field, toNat_formatRR]; omega

@[simp] theorem ry_formatRR (op rx ry : Nibble) : (fieldsOf (formatRR op rx ry)).ry = ry := by
  apply BitVec.eq_of_toNat_eq; simp only [fieldsOf, toNat_field, toNat_formatRR]; omega

@[simp] theorem op_formatRI (op rx : Nibble) (imm8 : Byte) : (fieldsOf (formatRI op rx imm8)).op = op := by
  apply BitVec.eq_of_toNat_eq; simp only [fieldsOf, toNat_field, toNat_formatRI]; omega

@[simp] theorem rx_formatRI (op rx : Nibble) (imm8 : Byte) : (fieldsOf (formatRI op rx imm8)).rx = rx := by
  apply BitVec.eq_of_toNat_eq; simp only [fieldsOf, toNat_field, toNat_formatRI]; omega

@[simp] theorem imm8_formatRI (op rx : Nibble) (imm8 : Byte) : (fieldsOf (formatRI op rx imm8)).imm8 = imm8 := by
  apply BitVec.eq_of_toNat_eq; simp only [fieldsOf, toNat_field, toNat_formatRI]; omega

@[simp] theorem op_formatA (op : Nibble) (addr12 : Addr) : (fieldsOf (formatA op addr12)).op = op := by
  apply BitVec.eq_of_toNat_eq; simp only [fieldsOf, toNat_field, toNat_formatA]; omega

@[simp] theorem addr12_formatA (op : Nibble) (addr12 : Addr) : (fieldsOf (formatA op addr12)).addr12 = addr12 := by
  apply BitVec.eq_of_toNat_eq; simp only [fieldsOf, toNat_field, toNat_formatA]; omega

@[simp] theorem op_formatN (op : Nibble) : (fieldsOf (formatN op)).op = op := by
  apply BitVec.eq_of_toNat_eq; simp only [fieldsOf, toNat_field, toNat_formatN]; omega

/-! ## The used bits of a word (30_encoding.md R73, R78) -/

theorem and_clear_low (w : Word) (k : Nat) (hk : k ≤ 16) : w &&& (BitVec.allOnes 16 <<< k) = (w >>> k) <<< k := by
  apply BitVec.eq_of_getLsbD_eq
  intro i hi
  by_cases h : i < k
  · simp [h]
  · simp only [BitVec.getLsbD_and, BitVec.getLsbD_shiftLeft, BitVec.getLsbD_ushiftRight, BitVec.getLsbD_allOnes, h, hi,
      show k + (i - k) = i by omega, show i - k < 16 by omega]
    simp

theorem toNat_shift_back (w : Word) (k : Nat) : ((w >>> k) <<< k).toNat = w.toNat / 2 ^ k * 2 ^ k := by
  have h : w.toNat / 2 ^ k * 2 ^ k ≤ w.toNat := Nat.div_mul_le_self _ _
  rw [BitVec.toNat_shiftLeft, BitVec.toNat_ushiftRight, Nat.shiftRight_eq_div_pow, Nat.shiftLeft_eq]
  exact Nat.mod_eq_of_lt (by have := w.isLt; omega)

/-- All bits, all but bits 3..0, and all but bits 11..0 of a word. -/
theorem and_all (w : Word) : w &&& 0xFFFF = w := by
  rw [show (0xFFFF : Word) = BitVec.allOnes 16 by rfl, BitVec.and_allOnes]

theorem toNat_and_FFF0 (w : Word) : (w &&& 0xFFF0).toNat = w.toNat / 16 * 16 := by
  rw [show (0xFFF0 : Word) = BitVec.allOnes 16 <<< 4 by rfl, and_clear_low w 4 (by omega), toNat_shift_back]
  omega

theorem toNat_and_F000 (w : Word) : (w &&& 0xF000).toNat = w.toNat / 4096 * 4096 := by
  rw [show (0xF000 : Word) = BitVec.allOnes 16 <<< 12 by rfl, and_clear_low w 12 (by omega), toNat_shift_back]
  omega

/-! ## The opcode map (30_encoding.md R76) -/

@[simp] theorem handler_code (n : Mnemonic) : opcodeMap.handler (opcodeMap.code n) = some n := by
  cases n <;> rfl

@[simp] theorem instrOf_mnemonic (n : Mnemonic) (f : Fields) : (instrOf n f).mnemonic = n := by
  cases n <;> rfl

/-- Decoding a word whose nibble selects `n` (30_encoding.md R77). -/
theorem decodeWith_of_handler {m : OpcodeMap} {w : Word} {n : Mnemonic} (h : m.handler (fieldsOf w).op = some n) :
    decodeWith m w = .ok (instrOf n (fieldsOf w)) := by
  unfold decodeWith; rw [h]

/-- Decoding a word whose nibble has no handler (30_encoding.md R77). -/
theorem decodeWith_of_no_handler {m : OpcodeMap} {w : Word} (h : m.handler (fieldsOf w).op = none) :
    decodeWith m w = .error (.invalidOpcode (fieldsOf w).op) := by
  unfold decodeWith; rw [h]

end Sys2Proof
end

