-- ==== Sys2Proof/Laws/Memory.lean ====
section
/-! SUPPORT. The laws of memory: read after write, writes elsewhere, and the canonical form kept by every operation. -/

namespace Sys2Proof.Machine

/-! ## Lookup and insert -/

theorem Memory.lookup_insert_self (m : Memory) (a : Nat) (v : Word) : Memory.lookup (Memory.insert m a v) a = some v := by
  induction m with
  | nil => simp [Memory.insert, Memory.lookup]
  | cons c rest ih =>
    obtain ⟨b, w⟩ := c
    unfold Memory.insert
    split
    · simp [Memory.lookup]
    · split
      · simp [Memory.lookup]
      · rename_i h
        simp [Memory.lookup, Ne.symm h, ih]

theorem Memory.lookup_insert_of_ne (m : Memory) {a k : Nat} (v : Word) (h : k ≠ a) :
    Memory.lookup (Memory.insert m a v) k = Memory.lookup m k := by
  induction m with
  | nil => simp [Memory.insert, Memory.lookup, Ne.symm h]
  | cons c rest ih =>
    obtain ⟨b, w⟩ := c
    unfold Memory.insert
    split
    · simp [Memory.lookup, Ne.symm h]
    · split
      · rename_i hab
        subst hab
        simp [Memory.lookup, Ne.symm h]
      · simp [Memory.lookup, ih]

/-- Inserting a key of at least `lo` and below 4096 keeps the list sorted from `lo`. -/
theorem Memory.sortedFrom_insert (m : Memory) {lo a : Nat} (v : Word) (hlo : lo ≤ a) (ha : a < memWords)
    (hm : Memory.sortedFrom lo m = true) : Memory.sortedFrom lo (Memory.insert m a v) = true := by
  induction m generalizing lo with
  | nil => simp [Memory.insert, Memory.sortedFrom, hlo, ha]
  | cons c rest ih =>
    obtain ⟨b, w⟩ := c
    simp only [Memory.sortedFrom, Bool.and_eq_true, decide_eq_true_eq] at hm
    unfold Memory.insert
    split
    · simp only [Memory.sortedFrom, Bool.and_eq_true, decide_eq_true_eq]
      exact ⟨⟨hlo, ha⟩, ⟨by omega, hm.1.2⟩, hm.2⟩
    · split
      · rename_i hab
        subst hab
        simp only [Memory.sortedFrom, Bool.and_eq_true, decide_eq_true_eq]
        exact ⟨⟨hlo, ha⟩, hm.2⟩
      · simp only [Memory.sortedFrom, Bool.and_eq_true, decide_eq_true_eq]
        exact ⟨hm.1, ih (by omega) hm.2⟩

/-! ## Read and write -/

/-- A read after a write to the same address gives the value written (20_memory.md R59). -/
@[simp] theorem Memory.read_write_self (m : Memory) (a : Addr) (v : Word) : (m.write a v).read a = some v :=
  Memory.lookup_insert_self m a.toNat v

/-- A write leaves every other address alone. -/
theorem Memory.read_write_of_ne (m : Memory) {a b : Addr} (v : Word) (h : b ≠ a) : (m.write a v).read b = m.read b :=
  Memory.lookup_insert_of_ne m v fun e => h (BitVec.eq_of_toNat_eq e)

@[simp] theorem Memory.read_nil (a : Addr) : Memory.read [] a = none := rfl

/-- A write keeps the canonical form. -/
theorem Memory.wf_write (m : Memory) (a : Addr) (v : Word) (h : m.wf = true) : (m.write a v).wf = true :=
  Memory.sortedFrom_insert m v (Nat.zero_le _) a.isLt h

/-- Loading keeps the canonical form. -/
theorem Memory.wf_loadFrom (m : Memory) (k : Nat) (ws : List Word) (h : m.wf = true) : (m.loadFrom k ws).wf = true := by
  induction ws generalizing m k with
  | nil => exact h
  | cons w ws ih => exact ih _ _ (Memory.wf_write m _ w h)

/-- The empty memory is in canonical form. -/
theorem Memory.wf_nil : Memory.wf [] = true := rfl

/-! ## Loading -/

/-- What `load` leaves at each address: the word given for it, or what was there (40_execution_engine.md R138). -/
theorem Memory.read_loadFrom (m : Memory) (k : Nat) (ws : List Word) (a : Addr) (hk : k + ws.length ≤ memWords) :
    (m.loadFrom k ws).read a = if k ≤ a.toNat then (ws[a.toNat - k]?).or (m.read a) else m.read a := by
  induction ws generalizing m k with
  | nil => simp [Memory.loadFrom]
  | cons w ws ih =>
    simp only [List.length_cons, memWords] at hk
    have key : (BitVec.ofNat 12 k).toNat = k := by rw [BitVec.toNat_ofNat, Nat.mod_eq_of_lt (by omega)]
    rw [Memory.loadFrom, ih _ _ (by simp only [memWords]; omega)]
    rcases Nat.lt_trichotomy a.toNat k with h | h | h
    · have hne : a ≠ BitVec.ofNat 12 k := fun e => by rw [e, key] at h; omega
      simp [Memory.read_write_of_ne m w hne, show ¬k + 1 ≤ a.toNat by omega, show ¬k ≤ a.toNat by omega]
    · have ha : a = BitVec.ofNat 12 k := BitVec.eq_of_toNat_eq (by rw [key, h])
      subst ha
      rw [if_neg (by omega), Memory.read_write_self, if_pos (by omega), key, Nat.sub_self]
      rfl
    · have hne : a ≠ BitVec.ofNat 12 k := fun e => by rw [e, key] at h; omega
      rw [Memory.read_write_of_ne m w hne, if_pos (by omega), if_pos (by omega),
        show a.toNat - k = (a.toNat - (k + 1)) + 1 by omega, List.getElem?_cons_succ]

end Sys2Proof.Machine
end

