-- ==== Sys2Proof/Laws/State.lean ====
section
/-! SUPPORT. One lemma for each field and each named update of the state, so that no later proof unfolds a record update. -/

namespace Sys2Proof.Machine

/-! ## Ending a cycle -/

@[simp] theorem retire_gpr (s : State) : (retire s).gpr = s.gpr := rfl
@[simp] theorem retire_pc (s : State) : (retire s).pc = s.pc + 1 := rfl
@[simp] theorem retire_rm (s : State) : (retire s).rm = s.rm := rfl
@[simp] theorem retire_rd (s : State) : (retire s).rd = s.rd := rfl
@[simp] theorem retire_rs (s : State) : (retire s).rs = s.rs := rfl
@[simp] theorem retire_rf (s : State) : (retire s).rf = s.rf := rfl
@[simp] theorem retire_sp (s : State) : (retire s).sp = s.sp := rfl
@[simp] theorem retire_stack (s : State) : (retire s).stack = s.stack := rfl
@[simp] theorem retire_ir (s : State) : (retire s).ir = s.ir := rfl
@[simp] theorem retire_mem (s : State) : (retire s).mem = s.mem := rfl
@[simp] theorem retire_fsm (s : State) : (retire s).fsm = if s.remaining - 1 = 0 then .haltedNormal else s.fsm := rfl
@[simp] theorem retire_remaining (s : State) : (retire s).remaining = s.remaining - 1 := rfl
@[simp] theorem retire_fault (s : State) : (retire s).fault = s.fault := rfl
@[simp] theorem retire_loaded (s : State) : (retire s).loaded = s.loaded := rfl
@[simp] theorem retire_hostMoves (s : State) : (retire s).hostMoves = s.hostMoves := rfl

/-! ## Taking a fault -/

@[simp] theorem takeFault_gpr (c : FaultCause) (w : Option Word) (s : State) : (takeFault c w s).gpr = s.gpr := rfl
@[simp] theorem takeFault_pc (c : FaultCause) (w : Option Word) (s : State) : (takeFault c w s).pc = s.pc := rfl
@[simp] theorem takeFault_rm (c : FaultCause) (w : Option Word) (s : State) : (takeFault c w s).rm = s.rm := rfl
@[simp] theorem takeFault_rd (c : FaultCause) (w : Option Word) (s : State) : (takeFault c w s).rd = s.rd := rfl
@[simp] theorem takeFault_rs (c : FaultCause) (w : Option Word) (s : State) : (takeFault c w s).rs = s.rs := rfl
@[simp] theorem takeFault_rf (c : FaultCause) (w : Option Word) (s : State) : (takeFault c w s).rf = s.rf := rfl
@[simp] theorem takeFault_sp (c : FaultCause) (w : Option Word) (s : State) : (takeFault c w s).sp = s.sp := rfl
@[simp] theorem takeFault_stack (c : FaultCause) (w : Option Word) (s : State) : (takeFault c w s).stack = s.stack := rfl
@[simp] theorem takeFault_ir (c : FaultCause) (w : Option Word) (s : State) : (takeFault c w s).ir = s.ir := rfl
@[simp] theorem takeFault_mem (c : FaultCause) (w : Option Word) (s : State) : (takeFault c w s).mem = s.mem := rfl
@[simp] theorem takeFault_fsm (c : FaultCause) (w : Option Word) (s : State) : (takeFault c w s).fsm = .haltedError := rfl
@[simp] theorem takeFault_remaining (c : FaultCause) (w : Option Word) (s : State) : (takeFault c w s).remaining = s.remaining := rfl
@[simp] theorem takeFault_fault (c : FaultCause) (w : Option Word) (s : State) : (takeFault c w s).fault = some { cause := c, pc := s.pc, ir := w } := rfl
@[simp] theorem takeFault_loaded (c : FaultCause) (w : Option Word) (s : State) : (takeFault c w s).loaded = s.loaded := rfl
@[simp] theorem takeFault_hostMoves (c : FaultCause) (w : Option Word) (s : State) : (takeFault c w s).hostMoves = s.hostMoves := rfl

/-! ## A completed cycle and a taken fault, as claims write them -/

@[simp] theorem State.completed_gpr (s : State) (p : Word) : (s.completed p).gpr = s.gpr := rfl
@[simp] theorem State.completed_pc (s : State) (p : Word) : (s.completed p).pc = p := rfl
@[simp] theorem State.completed_rm (s : State) (p : Word) : (s.completed p).rm = s.rm := rfl
@[simp] theorem State.completed_rd (s : State) (p : Word) : (s.completed p).rd = s.rd := rfl
@[simp] theorem State.completed_rs (s : State) (p : Word) : (s.completed p).rs = s.rs := rfl
@[simp] theorem State.completed_rf (s : State) (p : Word) : (s.completed p).rf = s.rf := rfl
@[simp] theorem State.completed_sp (s : State) (p : Word) : (s.completed p).sp = s.sp := rfl
@[simp] theorem State.completed_stack (s : State) (p : Word) : (s.completed p).stack = s.stack := rfl
@[simp] theorem State.completed_ir (s : State) (p : Word) : (s.completed p).ir = s.ir := rfl
@[simp] theorem State.completed_mem (s : State) (p : Word) : (s.completed p).mem = s.mem := rfl
@[simp] theorem State.completed_fsm (s : State) (p : Word) : (s.completed p).fsm = if s.remaining - 1 = 0 then .haltedNormal else s.fsm := rfl
@[simp] theorem State.completed_remaining (s : State) (p : Word) : (s.completed p).remaining = s.remaining - 1 := rfl
@[simp] theorem State.completed_fault (s : State) (p : Word) : (s.completed p).fault = s.fault := rfl
@[simp] theorem State.completed_loaded (s : State) (p : Word) : (s.completed p).loaded = s.loaded := rfl
@[simp] theorem State.completed_hostMoves (s : State) (p : Word) : (s.completed p).hostMoves = s.hostMoves := rfl

@[simp] theorem State.faulted_gpr (s : State) (c : FaultCause) : (s.faulted c).gpr = s.gpr := rfl
@[simp] theorem State.faulted_pc (s : State) (c : FaultCause) : (s.faulted c).pc = s.pc := rfl
@[simp] theorem State.faulted_rm (s : State) (c : FaultCause) : (s.faulted c).rm = s.rm := rfl
@[simp] theorem State.faulted_rd (s : State) (c : FaultCause) : (s.faulted c).rd = s.rd := rfl
@[simp] theorem State.faulted_rs (s : State) (c : FaultCause) : (s.faulted c).rs = s.rs := rfl
@[simp] theorem State.faulted_rf (s : State) (c : FaultCause) : (s.faulted c).rf = s.rf := rfl
@[simp] theorem State.faulted_sp (s : State) (c : FaultCause) : (s.faulted c).sp = s.sp := rfl
@[simp] theorem State.faulted_stack (s : State) (c : FaultCause) : (s.faulted c).stack = s.stack := rfl
@[simp] theorem State.faulted_ir (s : State) (c : FaultCause) : (s.faulted c).ir = s.ir := rfl
@[simp] theorem State.faulted_mem (s : State) (c : FaultCause) : (s.faulted c).mem = s.mem := rfl
@[simp] theorem State.faulted_fsm (s : State) (c : FaultCause) : (s.faulted c).fsm = .haltedError := rfl
@[simp] theorem State.faulted_remaining (s : State) (c : FaultCause) : (s.faulted c).remaining = s.remaining := rfl
@[simp] theorem State.faulted_fault (s : State) (c : FaultCause) : (s.faulted c).fault = some { cause := c, pc := s.pc, ir := s.ir } := rfl
@[simp] theorem State.faulted_loaded (s : State) (c : FaultCause) : (s.faulted c).loaded = s.loaded := rfl
@[simp] theorem State.faulted_hostMoves (s : State) (c : FaultCause) : (s.faulted c).hostMoves = s.hostMoves := rfl

/-! ## The reset command -/

@[simp] theorem commandReset_gpr (s : State) : (commandReset s).gpr = State.reset.gpr := rfl
@[simp] theorem commandReset_pc (s : State) : (commandReset s).pc = State.reset.pc := rfl
@[simp] theorem commandReset_rm (s : State) : (commandReset s).rm = State.reset.rm := rfl
@[simp] theorem commandReset_rd (s : State) : (commandReset s).rd = State.reset.rd := rfl
@[simp] theorem commandReset_rs (s : State) : (commandReset s).rs = State.reset.rs := rfl
@[simp] theorem commandReset_rf (s : State) : (commandReset s).rf = State.reset.rf := rfl
@[simp] theorem commandReset_sp (s : State) : (commandReset s).sp = State.reset.sp := rfl
@[simp] theorem commandReset_stack (s : State) : (commandReset s).stack = State.reset.stack := rfl
@[simp] theorem commandReset_ir (s : State) : (commandReset s).ir = State.reset.ir := rfl
@[simp] theorem commandReset_mem (s : State) : (commandReset s).mem = State.reset.mem := rfl
@[simp] theorem commandReset_fsm (s : State) : (commandReset s).fsm = State.reset.fsm := rfl
@[simp] theorem commandReset_remaining (s : State) : (commandReset s).remaining = State.reset.remaining := rfl
@[simp] theorem commandReset_fault (s : State) : (commandReset s).fault = State.reset.fault := rfl
@[simp] theorem commandReset_loaded (s : State) : (commandReset s).loaded = State.reset.loaded := rfl
@[simp] theorem commandReset_hostMoves (s : State) : (commandReset s).hostMoves = s.hostMoves := rfl

/-! ## A general register -/

@[simp] theorem State.withReg_pc (s : State) (i : Nibble) (v : Byte) : (s.withReg i v).pc = s.pc := by
  unfold State.withReg; split <;> rfl
@[simp] theorem State.withReg_rm (s : State) (i : Nibble) (v : Byte) : (s.withReg i v).rm = s.rm := by
  unfold State.withReg; split <;> rfl
@[simp] theorem State.withReg_rd (s : State) (i : Nibble) (v : Byte) : (s.withReg i v).rd = s.rd := by
  unfold State.withReg; split <;> rfl
@[simp] theorem State.withReg_rs (s : State) (i : Nibble) (v : Byte) : (s.withReg i v).rs = s.rs := by
  unfold State.withReg; split <;> rfl
@[simp] theorem State.withReg_rf (s : State) (i : Nibble) (v : Byte) : (s.withReg i v).rf = s.rf := by
  unfold State.withReg; split <;> rfl
@[simp] theorem State.withReg_sp (s : State) (i : Nibble) (v : Byte) : (s.withReg i v).sp = s.sp := by
  unfold State.withReg; split <;> rfl
@[simp] theorem State.withReg_stack (s : State) (i : Nibble) (v : Byte) : (s.withReg i v).stack = s.stack := by
  unfold State.withReg; split <;> rfl
@[simp] theorem State.withReg_ir (s : State) (i : Nibble) (v : Byte) : (s.withReg i v).ir = s.ir := by
  unfold State.withReg; split <;> rfl
@[simp] theorem State.withReg_mem (s : State) (i : Nibble) (v : Byte) : (s.withReg i v).mem = s.mem := by
  unfold State.withReg; split <;> rfl
@[simp] theorem State.withReg_fsm (s : State) (i : Nibble) (v : Byte) : (s.withReg i v).fsm = s.fsm := by
  unfold State.withReg; split <;> rfl
@[simp] theorem State.withReg_remaining (s : State) (i : Nibble) (v : Byte) : (s.withReg i v).remaining = s.remaining := by
  unfold State.withReg; split <;> rfl
@[simp] theorem State.withReg_fault (s : State) (i : Nibble) (v : Byte) : (s.withReg i v).fault = s.fault := by
  unfold State.withReg; split <;> rfl
@[simp] theorem State.withReg_loaded (s : State) (i : Nibble) (v : Byte) : (s.withReg i v).loaded = s.loaded := by
  unfold State.withReg; split <;> rfl
@[simp] theorem State.withReg_hostMoves (s : State) (i : Nibble) (v : Byte) : (s.withReg i v).hostMoves = s.hostMoves := by
  unfold State.withReg; split <;> rfl

@[simp] theorem State.reg_withReg_self (s : State) (i : Nibble) (v : Byte) (h : i.toNat < numGpr) :
    (s.withReg i v).reg i = some v := by
  simp [State.reg, State.withReg, h]

theorem State.reg_withReg_of_ne (s : State) (i k : Nibble) (v : Byte) (h : k ≠ i) :
    (s.withReg i v).reg k = s.reg k := by
  have hn : i.toNat ≠ k.toNat := fun e => h (BitVec.eq_of_toNat_eq e.symm)
  unfold State.reg State.withReg
  by_cases hk : k.toNat < numGpr <;> by_cases hi : i.toNat < numGpr <;> simp [hk, hi, hn]

/-- Registers outside 0 to 11 hold nothing (10_state.md R22). -/
theorem State.reg_of_not_gpr (s : State) (i : Nibble) (h : numGpr ≤ i.toNat) : s.reg i = none := by
  simp [State.reg, Nat.not_lt.mpr h]

theorem State.lt_of_reg_eq_some {s : State} {i : Nibble} {v : Byte} (h : s.reg i = some v) : i.toNat < numGpr := by
  by_contra hn
  rw [State.reg_of_not_gpr s i (Nat.not_lt.mp hn)] at h
  cases h

/-! ## The state after reset -/

@[simp] theorem State.reset_reg (i : Nibble) : State.reset.reg i = none := by
  unfold State.reg
  split
  · simp [State.reset]
  · rfl

end Sys2Proof.Machine
end

