-- ==== Sys2Proof/Laws/Ops.lean ====
section
/-! SUPPORT. One lemma for each shared operation that says everything it can do, in the words of Safety.lean, and the small
equations that run it where its case is known. -/

namespace Sys2Proof.Machine

/-! ## Register access -/

/-- Everything ReadGPR can answer (40_execution_engine.md R131). -/
theorem readGpr_cases (s : State) (i : Nibble) :
    (numGpr ≤ i.toNat ∧ readGpr s i = .error (.registerIndexFault i)) ∨
    (i.toNat < numGpr ∧ s.reg i = none ∧ readGpr s i = .error (.unwrittenRead (.gpr i))) ∨
    (∃ v, s.reg i = some v ∧ readGpr s i = .ok v) := by
  unfold readGpr State.reg
  by_cases h : i.toNat < numGpr
  · simp only [dif_pos h]
    cases s.gpr[i.toNat] <;> simp [h]
  · simp [h, Nat.not_lt.mp h]

theorem readGpr_of_reg {s : State} {i : Nibble} {v : Byte} (h : s.reg i = some v) : readGpr s i = .ok v := by
  have hi := State.lt_of_reg_eq_some h
  rcases readGpr_cases s i with ⟨hn, _⟩ | ⟨_, hn, _⟩ | ⟨w, hw, e⟩
  · omega
  · rw [h] at hn; cases hn
  · rw [h] at hw; cases hw; exact e

theorem readGpr_of_not_gpr {s : State} {i : Nibble} (h : numGpr ≤ i.toNat) :
    readGpr s i = .error (.registerIndexFault i) := by
  simp [readGpr, Nat.not_lt.mpr h]

theorem readGpr_of_unwritten {s : State} {i : Nibble} (h : i.toNat < numGpr) (hr : s.reg i = none) :
    readGpr s i = .error (.unwrittenRead (.gpr i)) := by
  rcases readGpr_cases s i with ⟨hn, _⟩ | ⟨_, _, e⟩ | ⟨w, hw, _⟩
  · omega
  · exact e
  · rw [hr] at hw; cases hw

/-- Everything WriteGPR can answer (40_execution_engine.md R132). -/
theorem writeGpr_cases (s : State) (i : Nibble) (v : Byte) :
    (numGpr ≤ i.toNat ∧ writeGpr s i v = .error (.registerIndexFault i)) ∨
    (i.toNat < numGpr ∧ writeGpr s i v = .ok (s.withReg i v)) := by
  unfold writeGpr State.withReg
  by_cases h : i.toNat < numGpr <;> simp [h, Nat.not_lt.mp]

theorem writeGpr_of_gpr {s : State} {i : Nibble} (v : Byte) (h : i.toNat < numGpr) :
    writeGpr s i v = .ok (s.withReg i v) := by
  simp [writeGpr, State.withReg, h]

theorem writeGpr_of_not_gpr {s : State} {i : Nibble} (v : Byte) (h : numGpr ≤ i.toNat) :
    writeGpr s i v = .error (.registerIndexFault i) := by
  simp [writeGpr, Nat.not_lt.mpr h]

/-- Everything the read of an operand pair can answer (42_arithmetic.md R162): the faults of x[rx], then those of x[ry]. -/
theorem readPair_cases (s : State) (rx ry : Nibble) :
    (numGpr ≤ rx.toNat ∧ readPair s rx ry = .error (.registerIndexFault rx)) ∨
    (rx.toNat < numGpr ∧ s.reg rx = none ∧ readPair s rx ry = .error (.unwrittenRead (.gpr rx))) ∨
    (∃ a, s.reg rx = some a ∧ numGpr ≤ ry.toNat ∧ readPair s rx ry = .error (.registerIndexFault ry)) ∨
    (∃ a, s.reg rx = some a ∧ ry.toNat < numGpr ∧ s.reg ry = none ∧
      readPair s rx ry = .error (.unwrittenRead (.gpr ry))) ∨
    (∃ a b, s.reg rx = some a ∧ s.reg ry = some b ∧ readPair s rx ry = .ok (a, b)) := by
  unfold readPair
  rcases readGpr_cases s rx with ⟨h, e⟩ | ⟨h, hr, e⟩ | ⟨a, ha, e⟩
  · exact .inl ⟨h, by rw [e]; rfl⟩
  · exact .inr (.inl ⟨h, hr, by rw [e]; rfl⟩)
  · rcases readGpr_cases s ry with ⟨h, f⟩ | ⟨h, hr, f⟩ | ⟨b, hb, f⟩
    · exact .inr (.inr (.inl ⟨a, ha, h, by rw [e, f]; rfl⟩))
    · exact .inr (.inr (.inr (.inl ⟨a, ha, h, hr, by rw [e, f]; rfl⟩)))
    · exact .inr (.inr (.inr (.inr ⟨a, b, ha, hb, by rw [e, f]; rfl⟩)))

theorem readPair_of_reg {s : State} {rx ry : Nibble} {a b : Byte} (ha : s.reg rx = some a) (hb : s.reg ry = some b) :
    readPair s rx ry = .ok (a, b) := by
  unfold readPair
  rw [readGpr_of_reg ha, readGpr_of_reg hb]
  rfl

/-- Everything the zero-divisor check can answer (60_exceptions.md R244). -/
theorem checkDivisor_cases (m : Mnemonic) (b : Byte) :
    (b = 0 ∧ checkDivisor m b = .error (.arithmeticFault m)) ∨ (b ≠ 0 ∧ checkDivisor m b = .ok ()) := by
  unfold checkDivisor
  by_cases h : b = 0
  · exact .inl ⟨h, if_pos h⟩
  · exact .inr ⟨h, if_neg h⟩

/-- Everything the writes of a shift can answer (46_shift.md R215). -/
theorem writeShift_cases (s : State) (rx : Nibble) (r : Byte) :
    (numGpr ≤ rx.toNat ∧ writeShift s rx r = .error (.registerIndexFault rx)) ∨
    (rx.toNat < numGpr ∧ writeShift s rx r = .ok { s.withReg rx r with rf := some (rfOfShift r) }) := by
  unfold writeShift
  rcases writeGpr_cases s rx r with ⟨h, e⟩ | ⟨h, e⟩
  · exact .inl ⟨h, by rw [e]; rfl⟩
  · exact .inr ⟨h, by rw [e]; rfl⟩

/-! ## Memory, fetch and the call stack -/

/-- Everything a fetch can answer (20_memory.md R53). -/
theorem fetch_cases (s : State) :
    (memWords ≤ s.pc.toNat ∧ fetch s = .error (.fetchAddressFault s.pc)) ∨
    (s.pc.toNat < memWords ∧ s.mem.read (zext 12 s.pc) = none ∧ fetch s = .error (.unwrittenRead (.mem s.pc))) ∨
    (∃ w, s.pc.toNat < memWords ∧ s.mem.read (zext 12 s.pc) = some w ∧ fetch s = .ok w) := by
  unfold fetch
  by_cases h : memWords ≤ s.pc.toNat
  · simp [h]
  · simp only [if_neg h]
    cases s.mem.read (zext 12 s.pc) <;> simp [h, Nat.lt_of_not_le h]

theorem fetch_of_fetches {s : State} {w : Word} (h : s.Fetches w) : fetch s = .ok w := by
  unfold fetch
  rw [if_neg (Nat.not_le.mpr h.inMemory), h.word]

/-- Everything the push of CALL can answer (44_control_transfer.md R192, R194). -/
theorem pushReturn_cases (s : State) :
    (stackSlots ≤ s.sp.toNat ∧ pushReturn s = .error (.stackIndexFault .call s.sp)) ∨
    (∃ h : s.sp.toNat < stackSlots,
      pushReturn s = .ok { s with stack := s.stack.set s.sp.toNat (some s.pc) h, sp := s.sp + 1 }) := by
  unfold pushReturn
  by_cases h : s.sp.toNat < stackSlots
  · refine .inr ⟨h, ?_⟩
    rw [dif_pos h]
    have : trunc 8 (s.sp.toNat + 1) = s.sp + 1 := BitVec.eq_of_toNat_eq (by simp [BitVec.toNat_add])
    rw [this]
  · exact .inl ⟨Nat.not_lt.mp h, dif_neg h⟩

theorem popIndex_eq (s : State) : popIndex s = s.sp - 1 := by
  apply BitVec.eq_of_toNat_eq
  simp [popIndex, BitVec.toNat_sub]
  omega

/-- Everything the pop of RET can answer (44_control_transfer.md R195, R198). -/
theorem popReturn_cases (s : State) :
    (stackSlots ≤ (s.sp - 1).toNat ∧ popReturn s = .error (.stackIndexFault .ret (s.sp - 1))) ∨
    (∃ h : (s.sp - 1).toNat < stackSlots, s.stack[(s.sp - 1).toNat] = none ∧
      popReturn s = .error (.unwrittenRead (.stack (s.sp - 1)))) ∨
    (∃ (h : (s.sp - 1).toNat < stackSlots) (v : Word), s.stack[(s.sp - 1).toNat] = some v ∧
      popReturn s = .ok { s with sp := s.sp - 1, pc := v }) := by
  unfold popReturn
  simp only [popIndex_eq]
  by_cases h : (s.sp - 1).toNat < stackSlots
  · rw [dif_pos h]
    cases e : s.stack[(s.sp - 1).toNat] with
    | none => exact .inr (.inl ⟨h, e, rfl⟩)
    | some v => exact .inr (.inr ⟨h, v, e, rfl⟩)
  · exact .inl ⟨Nat.not_lt.mp h, dif_neg h⟩

/-! ## Ending a cycle -/

@[simp] theorem endCycle_ok (s t : State) : endCycle s (.ok t) = .next (t.completed (t.pc + 1)) := rfl

@[simp] theorem endCycle_error (s : State) (c : FaultCause) : endCycle s (.error c) = .next (s.faulted c) := rfl

/-- Everything the end of a cycle can answer (00_scope.md R14, 40_execution_engine.md R127): always a next state. -/
theorem endCycle_cases {s t : State} {h : Except FaultCause State} (e : endCycle s h = .next t) :
    (∃ c, h = .error c ∧ t = s.faulted c) ∨ (∃ u, h = .ok u ∧ t = u.completed (u.pc + 1)) := by
  cases h with
  | error c => exact .inl ⟨c, rfl, by cases e; rfl⟩
  | ok u => exact .inr ⟨u, rfl, by cases e; rfl⟩

theorem endCycle_total (s : State) (h : Except FaultCause State) : ∃ t, endCycle s h = .next t := by
  cases h with
  | error c => exact ⟨_, rfl⟩
  | ok u => exact ⟨_, rfl⟩

theorem retire_eq_completed (s : State) : retire s = s.completed (s.pc + 1) := rfl

theorem takeFault_eq_faulted (c : FaultCause) (s : State) : takeFault c s.ir s = s.faulted c := rfl

/-- PC after a skip instruction's handler (43_skip.md R181, R182). -/
theorem skipPc_eq (b : Bool) (p : Word) : skipPc b p = if b then p + 1 else p := by
  cases b
  · rfl
  · exact BitVec.eq_of_toNat_eq (by simp [skipPc, BitVec.toNat_add])

end Sys2Proof.Machine
end

