-- ==== Sys2Proof/Laws/Exec.lean ====
section
/-! SUPPORT. What each instruction can do, said once: the state its handler stages, or the fault it raises and when. Later
proofs cite `exec_cases` and `step_cases` instead of unfolding the meanings. -/

namespace Sys2Proof.Machine

/-! ## The staged state of a handler that succeeds -/

/-- The handler of `i` succeeds on `s` and stages `u`. -/
def Handled (i : Instr) (s u : State) : Prop :=
  match i with
  | .ld rx imm8 => rx.toNat < numGpr ∧ u = s.withReg rx imm8
  | .mv rx ry => ∃ v, s.reg ry = some v ∧ rx.toNat < numGpr ∧ u = s.withReg rx v
  | .add rx ry => ∃ a b, s.reg rx = some a ∧ s.reg ry = some b ∧ u = s.withReg rx (aluAdd a b)
  | .sub rx ry => ∃ a b, s.reg rx = some a ∧ s.reg ry = some b ∧ u = s.withReg rx (aluSub a b)
  | .mult rx ry => ∃ a b, s.reg rx = some a ∧ s.reg ry = some b ∧ u = s.withReg rx (aluMult a b)
  | .div rx ry => ∃ a b, s.reg rx = some a ∧ s.reg ry = some b ∧ b ≠ 0 ∧ u = s.withReg rx (aluDiv a b)
  | .mod rx ry =>
    ∃ a b, s.reg rx = some a ∧ s.reg ry = some b ∧ b ≠ 0 ∧ u = { s with rf := some (rfOfRemainder (aluMod a b)) }
  | .skp rx ry => u = { s with pc := if rx = ry then s.pc + 1 else s.pc }
  | .sne rx ry => u = { s with pc := if rx = ry then s.pc else s.pc + 1 }
  | .j addr12 => u = { s with pc := zext 16 addr12 }
  | .call addr12 =>
    ∃ h : s.sp.toNat < stackSlots,
      u = { s with stack := s.stack.set s.sp.toNat (some s.pc) h, sp := s.sp + 1, pc := zext 16 addr12 }
  | .ret =>
    ∃ (h : (s.sp - 1).toNat < stackSlots) (v : Word),
      s.stack[(s.sp - 1).toNat] = some v ∧ u = { s with sp := s.sp - 1, pc := v }
  | .la addr12 => u = { s with rm := some (zext 16 addr12) }
  | .sla rx ry =>
    ∃ a n, s.reg rx = some a ∧ s.reg ry = some n ∧
      u = { s.withReg rx (shiftLeft a n) with rf := some (rfOfShift (shiftLeft a n)) }
  | .sra rx ry =>
    ∃ a n, s.reg rx = some a ∧ s.reg ry = some n ∧
      u = { s.withReg rx (shiftRight sraFill a n) with rf := some (rfOfShift (shiftRight sraFill a n)) }
  | .wa rx imm8 => u = { s with mem := s.mem.write (zext 12 imm8) (zext 16 rx) }

/-! ## The fault of a handler that fails -/

/-- ReadGPR of `i` raises `c` (40_execution_engine.md R131). -/
def ReadRaises (s : State) (i : Nibble) (c : FaultCause) : Prop :=
  (numGpr ≤ i.toNat ∧ c = .registerIndexFault i) ∨
  (i.toNat < numGpr ∧ s.reg i = none ∧ c = .unwrittenRead (.gpr i))

/-- The read of the pair `rx`, `ry` raises `c` (42_arithmetic.md R162). -/
def PairRaises (s : State) (rx ry : Nibble) (c : FaultCause) : Prop :=
  ReadRaises s rx c ∨ (s.reg rx ≠ none ∧ ReadRaises s ry c)

/-- The handler of `i` raises `c` on `s`. -/
def Raises (i : Instr) (s : State) (c : FaultCause) : Prop :=
  match i with
  | .ld rx _ => numGpr ≤ rx.toNat ∧ c = .registerIndexFault rx
  | .mv rx ry => ReadRaises s ry c ∨ (s.reg ry ≠ none ∧ numGpr ≤ rx.toNat ∧ c = .registerIndexFault rx)
  | .add rx ry => PairRaises s rx ry c
  | .sub rx ry => PairRaises s rx ry c
  | .mult rx ry => PairRaises s rx ry c
  | .div rx ry => PairRaises s rx ry c ∨ (s.reg rx ≠ none ∧ s.reg ry = some 0 ∧ c = .arithmeticFault .div)
  | .mod rx ry => PairRaises s rx ry c ∨ (s.reg rx ≠ none ∧ s.reg ry = some 0 ∧ c = .arithmeticFault .mod)
  | .skp _ _ => False
  | .sne _ _ => False
  | .j _ => False
  | .call _ => stackSlots ≤ s.sp.toNat ∧ c = .stackIndexFault .call s.sp
  | .ret =>
    (stackSlots ≤ (s.sp - 1).toNat ∧ c = .stackIndexFault .ret (s.sp - 1)) ∨
    (∃ h : (s.sp - 1).toNat < stackSlots, s.stack[(s.sp - 1).toNat] = none ∧ c = .unwrittenRead (.stack (s.sp - 1)))
  | .la _ => False
  | .sla rx ry => PairRaises s rx ry c
  | .sra rx ry => PairRaises s rx ry c
  | .wa _ _ => False

/-! ## The shared shape of an instruction that reads a pair -/

/-- A handler that reads a pair and goes on with `k`. -/
theorem endCycle_pair_cases (s : State) (rx ry : Nibble) (k : Byte × Byte → Except FaultCause State) :
    (∃ c, PairRaises s rx ry c ∧ endCycle s (readPair s rx ry >>= k) = .next (s.faulted c)) ∨
    (∃ a b, s.reg rx = some a ∧ s.reg ry = some b ∧ endCycle s (readPair s rx ry >>= k) = endCycle s (k (a, b))) := by
  rcases readPair_cases s rx ry with ⟨h, e⟩ | ⟨h, hr, e⟩ | ⟨a, ha, h, e⟩ | ⟨a, ha, h, hr, e⟩ | ⟨a, b, ha, hb, e⟩
  · exact .inl ⟨_, .inl (.inl ⟨h, rfl⟩), by rw [e]; rfl⟩
  · exact .inl ⟨_, .inl (.inr ⟨h, hr, rfl⟩), by rw [e]; rfl⟩
  · exact .inl ⟨_, .inr ⟨by simp [ha], .inl ⟨h, rfl⟩⟩, by rw [e]; rfl⟩
  · exact .inl ⟨_, .inr ⟨by simp [ha], .inr ⟨h, hr, rfl⟩⟩, by rw [e]; rfl⟩
  · exact .inr ⟨a, b, ha, hb, by rw [e]; rfl⟩

/-- A handler that reads a pair and writes a result to x[rx]. -/
theorem endCycle_pairWrite_cases (s : State) (rx ry : Nibble) (f : Byte → Byte → Byte) :
    (∃ c, PairRaises s rx ry c ∧
      endCycle s (readPair s rx ry >>= fun p => writeGpr s rx (f p.1 p.2)) = .next (s.faulted c)) ∨
    (∃ a b, s.reg rx = some a ∧ s.reg ry = some b ∧
      endCycle s (readPair s rx ry >>= fun p => writeGpr s rx (f p.1 p.2)) =
        .next ((s.withReg rx (f a b)).completed (s.pc + 1))) := by
  rcases endCycle_pair_cases s rx ry fun p => writeGpr s rx (f p.1 p.2) with h | ⟨a, b, ha, hb, e⟩
  · exact .inl h
  · refine .inr ⟨a, b, ha, hb, ?_⟩
    rw [e, writeGpr_of_gpr _ (State.lt_of_reg_eq_some ha), endCycle_ok, State.withReg_pc]

/-- A handler that reads a pair, checks the divisor and goes on with `k`. -/
theorem endCycle_divide_cases (s : State) (rx ry : Nibble) (m : Mnemonic) (k : Byte → Byte → Except FaultCause State) :
    (∃ c, (PairRaises s rx ry c ∨ (s.reg rx ≠ none ∧ s.reg ry = some 0 ∧ c = .arithmeticFault m)) ∧
      endCycle s (readPair s rx ry >>= fun p => checkDivisor m p.2 >>= fun _ => k p.1 p.2) = .next (s.faulted c)) ∨
    (∃ a b, s.reg rx = some a ∧ s.reg ry = some b ∧ b ≠ 0 ∧
      endCycle s (readPair s rx ry >>= fun p => checkDivisor m p.2 >>= fun _ => k p.1 p.2) = endCycle s (k a b)) := by
  rcases endCycle_pair_cases s rx ry fun p => checkDivisor m p.2 >>= fun _ => k p.1 p.2 with ⟨c, h, e⟩ | ⟨a, b, ha, hb, e⟩
  · exact .inl ⟨c, .inl h, e⟩
  · rcases checkDivisor_cases m b with ⟨h0, hd⟩ | ⟨h0, hd⟩
    · subst h0
      exact .inl ⟨_, .inr ⟨by simp [ha], hb, rfl⟩, by rw [e, hd]; rfl⟩
    · exact .inr ⟨a, b, ha, hb, h0, by rw [e, hd]; rfl⟩

/-! ## Every instruction -/

/-- Everything `exec` can answer: always a next state, which is either the fault its handler raises or its handler's staged
state with the cycle ended. -/
theorem exec_cases (i : Instr) (s : State) :
    (∃ c, Raises i s c ∧ exec i s = .next (s.faulted c)) ∨
    (∃ u, Handled i s u ∧ exec i s = .next (u.completed (u.pc + 1))) := by
  cases i with
  | ld rx imm8 =>
    rcases writeGpr_cases s rx imm8 with ⟨h, e⟩ | ⟨h, e⟩
    · exact .inl ⟨_, ⟨h, rfl⟩, by simp [exec, execLd, e]⟩
    · exact .inr ⟨_, ⟨h, rfl⟩, by simp [exec, execLd, e]⟩
  | mv rx ry =>
    rcases readGpr_cases s ry with ⟨h, e⟩ | ⟨h, hr, e⟩ | ⟨v, hv, e⟩
    · exact .inl ⟨_, .inl (.inl ⟨h, rfl⟩), by simp only [exec, execMv, e]; rfl⟩
    · exact .inl ⟨_, .inl (.inr ⟨h, hr, rfl⟩), by simp only [exec, execMv, e]; rfl⟩
    · rcases writeGpr_cases s rx v with ⟨h, f⟩ | ⟨h, f⟩
      · exact .inl ⟨_, .inr ⟨by simp [hv], h, rfl⟩, by simp only [exec, execMv, e]; exact congrArg (endCycle s) f⟩
      · exact .inr ⟨_, ⟨v, hv, h, rfl⟩, by simp only [exec, execMv, e]; exact congrArg (endCycle s) f⟩
  | add rx ry =>
    rcases endCycle_pairWrite_cases s rx ry aluAdd with ⟨c, h, e⟩ | ⟨a, b, ha, hb, e⟩
    · exact .inl ⟨c, h, e⟩
    · exact .inr ⟨_, ⟨a, b, ha, hb, rfl⟩, by rw [State.withReg_pc]; exact e⟩
  | sub rx ry =>
    rcases endCycle_pairWrite_cases s rx ry aluSub with ⟨c, h, e⟩ | ⟨a, b, ha, hb, e⟩
    · exact .inl ⟨c, h, e⟩
    · exact .inr ⟨_, ⟨a, b, ha, hb, rfl⟩, by rw [State.withReg_pc]; exact e⟩
  | mult rx ry =>
    rcases endCycle_pairWrite_cases s rx ry aluMult with ⟨c, h, e⟩ | ⟨a, b, ha, hb, e⟩
    · exact .inl ⟨c, h, e⟩
    · exact .inr ⟨_, ⟨a, b, ha, hb, rfl⟩, by rw [State.withReg_pc]; exact e⟩
  | div rx ry =>
    rcases endCycle_divide_cases s rx ry .div (fun a b => writeGpr s rx (aluDiv a b)) with ⟨c, h, e⟩ | ⟨a, b, ha, hb, h0, e⟩
    · exact .inl ⟨c, h, e⟩
    · refine .inr ⟨_, ⟨a, b, ha, hb, h0, rfl⟩, e.trans ?_⟩
      rw [writeGpr_of_gpr _ (State.lt_of_reg_eq_some ha), endCycle_ok]
  | mod rx ry =>
    rcases endCycle_divide_cases s rx ry .mod
      (fun a b => .ok { s with rf := some (rfOfRemainder (aluMod a b)) }) with ⟨c, h, e⟩ | ⟨a, b, ha, hb, h0, e⟩
    · exact .inl ⟨c, h, e⟩
    · exact .inr ⟨_, ⟨a, b, ha, hb, h0, rfl⟩, e⟩
  | skp rx ry =>
    refine .inr ⟨_, rfl, ?_⟩
    by_cases h : rx = ry <;> simp [exec, execSkp, skipPc_eq, h]
  | sne rx ry =>
    refine .inr ⟨_, rfl, ?_⟩
    by_cases h : rx = ry <;> simp [exec, execSne, skipPc_eq, h]
  | j addr12 => exact .inr ⟨_, rfl, rfl⟩
  | call addr12 =>
    rcases pushReturn_cases s with ⟨h, e⟩ | ⟨h, e⟩
    · exact .inl ⟨_, ⟨h, rfl⟩, by simp only [exec, execCall, e]; rfl⟩
    · exact .inr ⟨_, ⟨h, rfl⟩, by simp only [exec, execCall, e]; rfl⟩
  | ret =>
    rcases popReturn_cases s with ⟨h, e⟩ | ⟨h, hn, e⟩ | ⟨h, v, hv, e⟩
    · exact .inl ⟨_, .inl ⟨h, rfl⟩, by simp only [exec, execRet, e]; rfl⟩
    · exact .inl ⟨_, .inr ⟨h, hn, rfl⟩, by simp only [exec, execRet, e]; rfl⟩
    · exact .inr ⟨_, ⟨h, v, hv, rfl⟩, by simp only [exec, execRet, e]; rfl⟩
  | la addr12 => exact .inr ⟨_, rfl, rfl⟩
  | sla rx ry =>
    rcases endCycle_pair_cases s rx ry (fun p => writeShift s rx (shiftLeft p.1 p.2)) with ⟨c, h, e⟩ | ⟨a, n, ha, hn, e⟩
    · exact .inl ⟨c, h, e⟩
    · refine .inr ⟨_, ⟨a, n, ha, hn, rfl⟩, e.trans ?_⟩
      rcases writeShift_cases s rx (shiftLeft a n) with ⟨h, _⟩ | ⟨_, f⟩
      · exact absurd (State.lt_of_reg_eq_some ha) (Nat.not_lt.mpr h)
      · rw [f, endCycle_ok]
  | sra rx ry =>
    rcases endCycle_pair_cases s rx ry (fun p => writeShift s rx (shiftRight sraFill p.1 p.2)) with
      ⟨c, h, e⟩ | ⟨a, n, ha, hn, e⟩
    · exact .inl ⟨c, h, e⟩
    · refine .inr ⟨_, ⟨a, n, ha, hn, rfl⟩, e.trans ?_⟩
      rcases writeShift_cases s rx (shiftRight sraFill a n) with ⟨h, _⟩ | ⟨_, f⟩
      · exact absurd (State.lt_of_reg_eq_some ha) (Nat.not_lt.mpr h)
      · rw [f, endCycle_ok]
  | wa rx imm8 => exact .inr ⟨_, rfl, rfl⟩

/-- What no handler touches. -/
theorem Handled.untouched {i : Instr} {s u : State} (h : Handled i s u) :
    u.remaining = s.remaining ∧ u.fsm = s.fsm ∧ u.fault = s.fault ∧ u.ir = s.ir ∧ u.rd = s.rd ∧ u.rs = s.rs ∧
      u.loaded = s.loaded ∧ u.hostMoves = s.hostMoves := by
  cases i <;> simp only [Handled] at h
  case ld => obtain ⟨_, rfl⟩ := h; simp
  case mv => obtain ⟨_, _, _, rfl⟩ := h; simp
  case add => obtain ⟨_, _, _, _, rfl⟩ := h; simp
  case sub => obtain ⟨_, _, _, _, rfl⟩ := h; simp
  case mult => obtain ⟨_, _, _, _, rfl⟩ := h; simp
  case div => obtain ⟨_, _, _, _, _, rfl⟩ := h; simp
  case mod => obtain ⟨_, _, _, _, _, rfl⟩ := h; simp
  case skp => subst h; simp
  case sne => subst h; simp
  case j => subst h; simp
  case call => obtain ⟨_, rfl⟩ := h; simp
  case ret => obtain ⟨_, _, _, rfl⟩ := h; simp
  case la => subst h; simp
  case sla => obtain ⟨_, _, _, _, rfl⟩ := h; simp
  case sra => obtain ⟨_, _, _, _, rfl⟩ := h; simp
  case wa => subst h; simp

/-! ## One cycle and one step -/

/-- Everything a cycle can answer: a fetch fault with IR unchanged, or the word in IR and then its instruction. -/
theorem cycle_cases (s : State) :
    (∃ c, fetch s = .error c ∧ cycle s = .next (takeFault c none s)) ∨
    (∃ w i, fetch s = .ok w ∧ decode w = .ok i ∧ cycle s = exec i { s with ir := some w }) ∨
    (∃ w op, fetch s = .ok w ∧ decode w = .error (.invalidOpcode op) ∧
      cycle s = .next (takeFault (.invalidOpcode op) (some w) { s with ir := some w })) := by
  unfold cycle cycleWith
  cases e : fetch s with
  | error c => exact .inl ⟨c, rfl, rfl⟩
  | ok w =>
    cases d : decodeWith opcodeMap w with
    | ok i => exact .inr (.inl ⟨w, i, rfl, d, by simp only [d]⟩)
    | error x => exact .inr (.inr ⟨w, x.1, rfl, d, by simp only [d]⟩)

/-- A cycle whose fetch and decode succeed runs the instruction with the word in IR. -/
theorem cycle_of_decode {s : State} {w : Word} {i : Instr} (hf : fetch s = .ok w) (hd : decode w = .ok i) :
    cycle s = exec i { s with ir := some w } := by
  unfold decode at hd
  simp only [cycle, cycleWith, hf, hd]

/-- A cycle whose fetch fails. -/
theorem cycle_of_fetch_error {s : State} {c : FaultCause} (hf : fetch s = .error c) :
    cycle s = .next (takeFault c none s) := by
  simp only [cycle, cycleWith, hf]

/-- The block's own step is a cycle in Running. -/
theorem ownStep_of_running {s : State} (h : s.fsm = .running) : ownStep s = cycle s := by
  simp only [ownStep, h]

/-- The block's own step leaves every other state as it is. -/
theorem ownStep_of_not_running {s : State} (h : s.fsm ≠ .running) : ownStep s = .next s := by
  unfold ownStep
  cases e : s.fsm <;> simp_all

/-- With no move of the host to come the step is the block's own. -/
theorem step_of_no_moves {s : State} (h : s.hostMoves = []) : step s = ownStep s := by
  simp only [step, h]

/-- Everything a step can answer: the block's own step, or the host's command. `r` is the state with the move taken. -/
theorem step_cases (s : State) :
    ∃ r : State, r = { s with hostMoves := s.hostMoves.tail } ∧
      ((step s = ownStep r ∧ (s.hostMoves = [] ∨ s.hostMoves.head? = some .idle)) ∨
        (step s = .next (commandReset r) ∧ s.hostMoves.head? = some .reset) ∨
        (∃ ws, step s = .next (commandLoad ws r) ∧ s.hostMoves.head? = some (.load ws)) ∨
        (step s = .next (commandRun r) ∧ s.hostMoves.head? = some .run)) := by
  refine ⟨_, rfl, ?_⟩
  unfold step
  cases e : s.hostMoves with
  | nil =>
    refine .inl ⟨?_, .inl rfl⟩
    show ownStep s = ownStep { s with hostMoves := [] }
    rw [← e]
  | cons m rest =>
    cases m with
    | idle => exact .inl ⟨rfl, .inr rfl⟩
    | reset => exact .inr (.inl ⟨rfl, rfl⟩)
    | load ws => exact .inr (.inr (.inl ⟨ws, rfl, rfl⟩))
    | run => exact .inr (.inr (.inr ⟨rfl, rfl⟩))

end Sys2Proof.Machine
end

