-- ==== Sys2Proof/Laws/PerInstr.lean ====
section
/-! SUPPORT. The statement made of every instruction, one lemma per constructor of Instr. -/

namespace Sys2Proof.Laws

/-- The opcode nibble of an encoded instruction is that of its mnemonic, over every opcode map (30_encoding.md R71, R81). -/
def OpcodeField.Statement (i : Instr) : Prop :=
  ∀ m : OpcodeMap, (fieldsOf (encodeWith m i)).op = m.code i.mnemonic

theorem OpcodeField.ld (rx : Nibble) (imm8 : Byte) : OpcodeField.Statement (.ld rx imm8) := fun _ => op_formatRI ..
theorem OpcodeField.mv (rx ry : Nibble) : OpcodeField.Statement (.mv rx ry) := fun _ => op_formatRR ..
theorem OpcodeField.add (rx ry : Nibble) : OpcodeField.Statement (.add rx ry) := fun _ => op_formatRR ..
theorem OpcodeField.sub (rx ry : Nibble) : OpcodeField.Statement (.sub rx ry) := fun _ => op_formatRR ..
theorem OpcodeField.mult (rx ry : Nibble) : OpcodeField.Statement (.mult rx ry) := fun _ => op_formatRR ..
theorem OpcodeField.div (rx ry : Nibble) : OpcodeField.Statement (.div rx ry) := fun _ => op_formatRR ..
theorem OpcodeField.mod (rx ry : Nibble) : OpcodeField.Statement (.mod rx ry) := fun _ => op_formatRR ..
theorem OpcodeField.skp (rx ry : Nibble) : OpcodeField.Statement (.skp rx ry) := fun _ => op_formatRR ..
theorem OpcodeField.sne (rx ry : Nibble) : OpcodeField.Statement (.sne rx ry) := fun _ => op_formatRR ..
theorem OpcodeField.j (addr12 : Addr) : OpcodeField.Statement (.j addr12) := fun _ => op_formatA ..
theorem OpcodeField.call (addr12 : Addr) : OpcodeField.Statement (.call addr12) := fun _ => op_formatA ..
theorem OpcodeField.ret : OpcodeField.Statement .ret := fun _ => op_formatN ..
theorem OpcodeField.la (addr12 : Addr) : OpcodeField.Statement (.la addr12) := fun _ => op_formatA ..
theorem OpcodeField.sla (rx ry : Nibble) : OpcodeField.Statement (.sla rx ry) := fun _ => op_formatRR ..
theorem OpcodeField.sra (rx ry : Nibble) : OpcodeField.Statement (.sra rx ry) := fun _ => op_formatRR ..
theorem OpcodeField.wa (rx : Nibble) (imm8 : Byte) : OpcodeField.Statement (.wa rx imm8) := fun _ => op_formatRI ..

end Sys2Proof.Laws
end

