-- ==== Sys2Proof/Tests/Slice0.lean ====
section
/-! SUPPORT. Tests: expected values are those of 95_test_vectors.md, or worked by hand from the rule named. Then one or more
witnesses for each obligation with hypotheses: concrete states and operands that meet all of them together. -/

namespace Sys2Proof.Tests

open Sys2Proof Sys2Proof.Machine

/-! ## WellFormed refuses an index of 12 to 15 in every field that accesses a register -/

theorem test_wf_refuses_ld_rx : (Instr.ld 12 0).wellFormed = false := by decide
theorem test_wf_refuses_mv_rx : (Instr.mv 12 0).wellFormed = false := by decide
theorem test_wf_refuses_mv_ry : (Instr.mv 0 15).wellFormed = false := by decide
theorem test_wf_refuses_add_rx : (Instr.add 13 0).wellFormed = false := by decide
theorem test_wf_refuses_add_ry : (Instr.add 0 12).wellFormed = false := by decide
theorem test_wf_refuses_sub_rx : (Instr.sub 12 0).wellFormed = false := by decide
theorem test_wf_refuses_sub_ry : (Instr.sub 0 14).wellFormed = false := by decide
theorem test_wf_refuses_mult_rx : (Instr.mult 15 0).wellFormed = false := by decide
theorem test_wf_refuses_mult_ry : (Instr.mult 0 12).wellFormed = false := by decide
theorem test_wf_refuses_div_rx : (Instr.div 12 0).wellFormed = false := by decide
theorem test_wf_refuses_div_ry : (Instr.div 0 12).wellFormed = false := by decide
theorem test_wf_refuses_mod_rx : (Instr.mod 12 0).wellFormed = false := by decide
theorem test_wf_refuses_mod_ry : (Instr.mod 0 13).wellFormed = false := by decide
theorem test_wf_refuses_sla_rx : (Instr.sla 12 0).wellFormed = false := by decide
theorem test_wf_refuses_sla_ry : (Instr.sla 2 15).wellFormed = false := by decide
theorem test_wf_refuses_sra_rx : (Instr.sra 12 0).wellFormed = false := by decide
theorem test_wf_refuses_sra_ry : (Instr.sra 0 12).wellFormed = false := by decide
/-- Indices that are used as values are never refused (10_state.md R22). -/
theorem test_wf_accepts_raw_indices :
    (Instr.skp 15 15).wellFormed && (Instr.sne 12 15).wellFormed && (Instr.wa 15 0).wellFormed = true := by decide
theorem test_wf_accepts_last_gpr : (Instr.ld 11 0xFF).wellFormed = true := by decide

/-! ## Each constructor's word, written out from R94 -/

theorem test_decode_ld : decode 0b0000101111111111 = .ok (.ld 11 0xFF) := by decide
theorem test_decode_mv : decode 0b0001000000010000 = .ok (.mv 0 1) := by decide
theorem test_decode_add : decode 0b0010000000010011 = .ok (.add 0 1) := by decide
theorem test_decode_sub : decode 0b0011001000000000 = .ok (.sub 2 0) := by decide
theorem test_decode_mult : decode 0b0100000000010000 = .ok (.mult 0 1) := by decide
theorem test_decode_div : decode 0b0101000000100000 = .ok (.div 0 2) := by decide
theorem test_decode_mod : decode 0b0110000100100000 = .ok (.mod 1 2) := by decide
theorem test_decode_skp : decode 0b0111001101000000 = .ok (.skp 3 4) := by decide
theorem test_decode_sne : decode 0b1000000000010000 = .ok (.sne 0 1) := by decide
theorem test_decode_j : decode 0b1001000100100011 = .ok (.j 0x123) := by decide
theorem test_decode_call : decode 0b1010101111001101 = .ok (.call 0xBCD) := by decide
theorem test_decode_ret : decode 0b1011000100100011 = .ok .ret := by decide
theorem test_decode_la : decode 0b1100111111111111 = .ok (.la 0xFFF) := by decide
theorem test_decode_sla : decode 0b1101001011110000 = .ok (.sla 2 15) := by decide
theorem test_decode_sra : decode 0b1110000000000000 = .ok (.sra 0 0) := by decide
theorem test_decode_wa : decode 0b1111001000010000 = .ok (.wa 2 0x10) := by decide

theorem test_encode_add : encode (.add 0 1) = 0x2010 := by decide
theorem test_encode_sla : encode (.sla 2 0) = 0xD200 := by decide
theorem test_decodeTableWord : decodeTableWord 16 0xA020 = some (.call 0x020) := by decide

/-! ## One step of each instruction -/

/-- What a step answers, when it answers a next state. -/
def after (o : Host.Outcome State Fault Refusal) : Option State :=
  match o with
  | .next t => some t
  | .fault _ => none
  | .refused _ => none

/-- A running engine with two cycles left, the word `w` at PC `p`, and x[0], x[1], x[2] as given. -/
def at3 (p w : Word) (a b c : Option Byte) : State :=
  { State.reset with
    gpr := #v[a, b, c, none, none, none, none, none, none, none, none, none]
    pc := p
    mem := [(p.toNat, w)]
    fsm := .running
    remaining := 2
    loaded := true }

/-- The state with SP and slot `k` as given. -/
def withStack (s : State) (sp : Byte) (k : Nat) (v : Word) : State :=
  { s with sp := sp, stack := s.stack.setIfInBounds k (some v) }

/-- The general registers 0 and 2, RF and PC after the step of `w` at 0x010. -/
def result (w : Word) (a b c : Option Byte) : Option (Option Byte × Option Byte × Option Word × Word) :=
  (after (step (at3 0x010 w a b c))).map fun t => (t.reg 0, t.reg 2, t.rf, t.pc)

/-- The engine's state, the fault's cause and code, and PC after the step of `w` at 0x010. -/
def stopped (w : Word) (a b c : Option Byte) : Option (Fsm × Option FaultCause × Option Nat × Word) :=
  (after (step (at3 0x010 w a b c))).map fun t =>
    (t.fsm, t.fault.map (fun r => r.cause), t.fault.map (fun r => r.code), t.pc)

/-- Section 2.2. -/
theorem test_ld : result 0x000A none none none = some (some 0x0A, none, none, 0x011) := by decide
theorem test_ld_bad_index :
    stopped 0x0C00 none none none = some (.haltedError, some (.registerIndexFault 12), some 3, 0x010) := by decide
theorem test_mv : result 0x1010 none (some 0x37) none = some (some 0x37, none, none, 0x011) := by decide
theorem test_mv_reads_source_first :
    stopped 0x1C00 none none none = some (.haltedError, some (.unwrittenRead (.gpr 0)), some 6, 0x010) := by decide
/-- Section 2.3. -/
theorem test_add_wraps : result 0x2010 (some 0xFF) (some 0x01) none = some (some 0x00, none, none, 0x011) := by decide
theorem test_sub_wraps : result 0x3010 (some 0x03) (some 0x05) none = some (some 0xFE, none, none, 0x011) := by decide
theorem test_mult_truncates : result 0x4010 (some 0x64) (some 0x07) none = some (some 0xBC, none, none, 0x011) := by decide
theorem test_mult_same_register : result 0x4000 (some 0x09) none none = some (some 0x51, none, none, 0x011) := by decide
theorem test_div_unsigned : result 0x5010 (some 0x80) (some 0x03) none = some (some 0x2A, none, none, 0x011) := by decide
theorem test_div_zero :
    stopped 0x5010 (some 0x0C) (some 0) none = some (.haltedError, some (.arithmeticFault .div), some 2, 0x010) := by decide
theorem test_mod : result 0x6010 (some 0x64) (some 0x07) none = some (some 0x64, none, some 0x0002, 0x011) := by decide
theorem test_mod_zero :
    stopped 0x6010 (some 0x0C) (some 0) none = some (.haltedError, some (.arithmeticFault .mod), some 2, 0x010) := by decide
/-- Section 2.4. -/
theorem test_skp_equal_unwritten : result 0x7FF0 none none none = some (none, none, none, 0x012) := by decide
theorem test_skp_different : result 0x7340 none none none = some (none, none, none, 0x011) := by decide
theorem test_sne_different : result 0x8010 none none none = some (none, none, none, 0x012) := by decide
theorem test_sne_equal : result 0x8000 none none none = some (none, none, none, 0x011) := by decide
/-- Section 2.5. -/
theorem test_j_lands_after : result 0x9FFF none none none = some (none, none, none, 0x1000) := by decide
theorem test_call :
    (after (step (at3 0x003 0xA020 none none none))).map (fun t => (t.stack[0], t.sp, t.pc)) =
      some (some 0x0003, 1, 0x021) := by decide
theorem test_call_full :
    (after (step (withStack (at3 0x003 0xA020 none none none) 16 0 0))).map
      (fun t => (t.fault, t.sp, t.pc)) =
      some (some ⟨.stackIndexFault .call 16, 0x003, some 0xA020⟩, 16, 0x003) := by decide
theorem test_ret :
    (after (step (withStack (at3 0x010 0xB000 none none none) 16 15 0x0100))).map (fun t => (t.sp, t.pc)) =
      some (15, 0x101) := by decide
theorem test_ret_empty :
    stopped 0xB000 none none none = some (.haltedError, some (.stackIndexFault .ret 255), some 4, 0x010) := by decide
/-- Section 2.6. -/
theorem test_la : (after (step (at3 0 0xCFFF none none none))).map (fun t => (t.rm, t.pc)) = some (some 0x0FFF, 1) := by
  decide
/-- Section 2.7: x[2] shifted by x[0]. -/
theorem test_sla : result 0xD200 (some 1) none (some 0x41) = some (some 1, some 0x82, some 0x0001, 0x011) := by decide
theorem test_sla_large_amount : result 0xD200 (some 255) none (some 0xFF) = some (some 255, some 0, some 0, 0x011) := by
  decide
theorem test_sra : result 0xE200 (some 1) none (some 0x82) = some (some 1, some 0x41, some 0x0000, 0x011) := by decide
theorem test_sra_by_zero : result 0xE200 (some 0) none (some 0x80) = some (some 0, some 0x80, some 0x0001, 0x011) := by
  decide
theorem test_sra_sign_alternative : shiftRight .sign 0x82 1 = 0xC1 ∧ shiftRight .sign 0x80 7 = 0xFF := by decide
/-- Section 2.8. -/
theorem test_wa : (after (step (at3 0 0xF210 none none none))).map (fun t => t.mem) = some [(0, 0xF210), (0x10, 0x0002)] := by
  decide
theorem test_wa_bad_index_is_stored :
    (after (step (at3 0 0xFC80 none none none))).map (fun t => t.mem.read 0x080) = some (some 0x000C) := by decide
/-- Section 2.9. -/
theorem test_fetch_outside :
    (after (step (at3 0x1000 0x0001 none none none))).map (fun t => (t.fault, t.ir)) =
      some (some ⟨.fetchAddressFault 0x1000, 0x1000, none⟩, none) := by decide
theorem test_fetch_unwritten :
    (after (step { at3 2 0x0001 none none none with pc := 3 })).map (fun t => (t.fault, t.remaining)) =
      some (some ⟨.unwrittenRead (.mem 3), 3, none⟩, 2) := by decide
theorem test_load :
    (after (step { State.reset with hostMoves := [.load [0x9000, 0x0001], .run] })).map
      (fun t => (t.mem, t.remaining, t.hostMoves)) = some ([(0, 0x9000), (1, 0x0001)], 2, [.run]) := by decide
theorem test_run_empty_program :
    (after (step { State.reset with hostMoves := [.run] })).map (fun t => (t.fsm, t.pc)) = some (.haltedNormal, 0) := by
  decide
theorem test_withFetchWord :
    (after (step (State.reset.withFetchWord 16 0x000A))).map (fun t => (t.reg 0, t.fsm, t.pc)) =
      some (some 0x0A, .haltedNormal, 1) := by decide

/-! ## Assembler and loader (sections 1 and 2.10) -/

theorem test_asm_one_line :
    Assembler.assembleText "LD R1 0x0A ADD R1 R2" = .ok "000a\n2010" := by decide
theorem test_asm_number : Assembler.assemble "LD R1 10".toList = .ok [0x000A] := by decide
theorem test_asm_shift : Assembler.assemble "SLA R3".toList = .ok [0xD200] := by decide
theorem test_asm_wa : Assembler.assemble "WA R3 0x10".toList = .ok [0xF210] := by decide
theorem test_asm_short_address : Assembler.assemble "J 0x5".toList = .error (.addressDigits [5]) := by decide
theorem test_asm_large_number : Assembler.assemble "LD R1 256".toList = .error (.numberTooLarge 256) := by decide
theorem test_asm_wa_number : Assembler.assemble "WA R1 10".toList = .error (.wrongCategory (.number 10)) := by decide
theorem test_asm_lower_case : Assembler.assemble "add R1 R2".toList = .error (.invalidSyntax .invalid) := by decide
theorem test_asm_rf : Assembler.assemble "ADD R1 RF".toList = .error (.wrongCategory .invalid) := by decide
theorem test_asm_no_opcode : Assembler.assemble "R1 ADD R2".toList = .error (.invalidSyntax (.register 0)) := by decide
theorem test_asm_end : Assembler.assemble "LD R1".toList = .error (.wrongCategory .endOfInput) := by decide
theorem test_asm_no_partial_output :
    Assembler.assemble "ADD R1 R2 RET MOD".toList = .error (.wrongCategory .endOfInput) := by decide
theorem test_rom : RomLoader.romWords "000a\n2010 ffff".toList = .ok [0x000A, 0x2010, 0xFFFF] := by decide
theorem test_rom_too_large_value :
    RomLoader.romWords "10000".toList = .error (.badToken "10000".toList) := by decide

/-! ## Witnesses: encoding -/

theorem witness_DecodeEncodeRoundTrip : ∀ n, opcodeMap.handler (opcodeMap.code n) = some n := by
  intro n; cases n <;> rfl

theorem fetches_at3 (p w : Word) (a b c : Option Byte) (hp : p.toNat < 4096)
    (h : Memory.read [(p.toNat, w)] (zext 12 p) = some w) : (at3 p w a b c).Fetches w :=
  ⟨rfl, rfl, hp, h⟩

theorem witness_UnusedBitsHaveNoEffect :
    decode 0x2010 = .ok (.add 0 1) ∧
    (0x2010 : Word) &&& usedBits (Instr.add 0 1).mnemonic = 0x201F &&& usedBits (Instr.add 0 1).mnemonic ∧
    (at3 0x010 0x2010 none none none).Fetches 0x2010 ∧ (at3 0x010 0x201F none none none).Fetches 0x201F ∧
    at3 0x010 0x201F none none none =
      { at3 0x010 0x2010 none none none with mem := (at3 0x010 0x201F none none none).mem } :=
  ⟨by decide, by decide, fetches_at3 _ _ _ _ _ (by decide) (by decide),
    fetches_at3 _ _ _ _ _ (by decide) (by decide), rfl⟩

/-! ## Witnesses: instructions -/

theorem witness_ReadGpr_bad_index : 12 ≤ (12 : Nibble).toNat ∧ 12 ≤ (15 : Nibble).toNat := by decide
theorem witness_ReadGpr_unwritten : (11 : Nibble).toNat < 12 ∧ (at3 0 0 (some 1) none none).gpr[11] = none := by decide
theorem witness_ReadGpr_written : (0 : Nibble).toNat < 12 ∧ (at3 0 0 (some 1) none none).gpr[0] = some 1 := by decide
theorem witness_WriteGpr : 12 ≤ (12 : Nibble).toNat ∧ (11 : Nibble).toNat < 12 ∧ (10 : Nibble) ≠ 11 := by decide
theorem witness_LdWritesImmediate : (11 : Nibble).toNat < 12 ∧ 12 ≤ (12 : Nibble).toNat := by decide
theorem witness_MvCopiesRegister_faults :
    12 ≤ (15 : Nibble).toNat ∧ ((11 : Nibble).toNat < 12 ∧ (at3 0 0 (some 1) none none).reg 11 = none) ∧
    ((at3 0 0 (some 1) none none).reg 0 ≠ none ∧ 12 ≤ (12 : Nibble).toNat) := by decide
theorem witness_MvCopiesRegister_value :
    (at3 0 0 (some 1) none none).reg 0 = some 1 ∧ (11 : Nibble).toNat < 12 := by decide
/-- The hypotheses of the four faults of an operand pair, shared by ADD, SUB, MULT, DIV, MOD, SLA and SRA. -/
theorem witness_PairReadFaults :
    numGpr ≤ (12 : Nibble).toNat ∧ ((11 : Nibble).toNat < numGpr ∧ (at3 0 0 (some 1) none none).reg 11 = none) ∧
    ((at3 0 0 (some 1) none none).reg 0 ≠ none ∧ numGpr ≤ (15 : Nibble).toNat) ∧
    ((at3 0 0 (some 1) none none).reg 0 ≠ none ∧ (1 : Nibble).toNat < numGpr ∧
      (at3 0 0 (some 1) none none).reg 1 = none) := by decide
/-- The hypotheses of the results of ADD, SUB and MULT, and of SLA and SRA (amounts 8 and 255 of section 2.7 included). -/
theorem witness_operand_pair :
    ((at3 0 0 (some 0xFF) (some 0xFF) none).reg 0 = some 0xFF ∧ (at3 0 0 (some 0xFF) (some 0xFF) none).reg 1 = some 0xFF) ∧
    ((at3 0 0 (some 3) (some 8) none).reg 0 = some 3 ∧ (at3 0 0 (some 3) (some 8) none).reg 1 = some 8) := by decide
/-- The hypotheses of DIV and MOD, for a zero divisor and another. -/
theorem witness_DivWritesQuotient_ModWritesRemainderToRf :
    ((at3 0 0 (some 12) (some 0) none).reg 0 = some 12 ∧ (at3 0 0 (some 12) (some 0) none).reg 1 = some 0) ∧
    ((at3 0 0 (some 12) (some 1) none).reg 0 = some 12 ∧ (at3 0 0 (some 12) (some 1) none).reg 1 = some 1 ∧
      (1 : Byte) ≠ 0) := by decide
theorem witness_CallPushesOwnAddress :
    (withStack State.reset 15 0 0).sp.toNat < 16 ∧ 16 ≤ (withStack State.reset 16 0 0).sp.toNat ∧
    16 ≤ (withStack State.reset 255 0 0).sp.toNat := by decide
theorem witness_RetReturnsAfterPushedAddress_faults :
    State.reset.sp.toNat = 0 ∧ 16 < (withStack State.reset 17 0 0).sp.toNat ∧
    16 < (withStack State.reset 255 0 0).sp.toNat := by decide
theorem witness_RetReturnsAfterPushedAddress_unwritten :
    (withStack State.reset 16 0 0).sp.toNat = 15 + 1 ∧ (withStack State.reset 16 0 0).stack[15] = none := by decide
theorem witness_RetReturnsAfterPushedAddress_returns :
    ((withStack State.reset 16 15 0x100).sp.toNat = 15 + 1 ∧ (withStack State.reset 16 15 0x100).stack[15] = some 0x100) ∧
    ((withStack State.reset 1 0 3).sp.toNat = 0 + 1 ∧ (withStack State.reset 1 0 3).stack[0] = some 3) := by decide
theorem witness_SraFillsCompared : 7 ≤ (7 : Byte).toNat ∧ 7 ≤ (255 : Byte).toNat ∧ 0 + (7 : Byte).toNat < 8 := by decide
theorem witness_WaStoresIndex : (0x0FE : Addr) ≠ storeAddr 0xFF ∧ (0x100 : Addr) ≠ storeAddr 0xFF := by decide

/-! ## Witnesses: the cycle -/

theorem witness_StepRunsDecodedInstruction :
    (at3 0xFFF 0x2013 none none none).Fetches 0x2013 ∧ decode 0x2013 = .ok (.add 0 1) :=
  ⟨fetches_at3 _ _ _ _ _ (by decide) (by decide), by decide⟩
theorem witness_FetchReadsOrFaults_outside :
    (at3 0x1000 1 none none none).hostMoves = [] ∧ (at3 0x1000 1 none none none).fsm = .running ∧
    0x1000 ≤ (at3 0x1000 1 none none none).pc.toNat := by decide
theorem witness_FetchReadsOrFaults_unwritten :
    (withStack { State.reset with fsm := .running, pc := 0xFFF } 0 0 0).hostMoves = [] ∧
    ({ State.reset with fsm := .running, pc := 0xFFF } : State).fsm = .running ∧
    ({ State.reset with fsm := .running, pc := 0xFFF } : State).pc.toNat < 0x1000 ∧
    ({ State.reset with fsm := .running, pc := 0xFFF } : State).mem.read 0xFFF = none := by decide
theorem witness_FetchReadsOrFaults_read :
    (at3 0xFFF 1 none none none).hostMoves = [] ∧ (at3 0xFFF 1 none none none).fsm = .running ∧
    (at3 0xFFF 1 none none none).pc.toNat < 0x1000 ∧ (at3 0xFFF 1 none none none).mem.read (zext 12 (0xFFF : Word)) = some 1 := by
  decide
theorem witness_InvalidOpcodeOnlyWithoutHandler :
    fetch (at3 0 0xD200 none none none) = .ok 0xD200 ∧
    ({ code := opcodeOf, handler := fun _ => none } : OpcodeMap).handler ((0xD200 : Word).extractLsb' 12 4) = none :=
  ⟨by decide, rfl⟩
/-- A handler's fault. -/
theorem witness_FaultsArePrecise_handler :
    (at3 0 0x0C00 none none none).hostMoves = [] ∧ (at3 0 0x0C00 none none none).fsm = .running ∧
    ∃ t, step (at3 0 0x0C00 none none none) = .next t ∧ t.fsm = .haltedError :=
  ⟨rfl, rfl, _, rfl, rfl⟩
/-- A fetch fault. -/
theorem witness_FaultsArePrecise_fetch :
    (at3 0x1000 1 none none none).hostMoves = [] ∧ (at3 0x1000 1 none none none).fsm = .running ∧
    ∃ t, step (at3 0x1000 1 none none none) = .next t ∧ t.fsm = .haltedError :=
  ⟨rfl, rfl, _, rfl, rfl⟩
/-- Each element's write by the instruction that writes it. -/
theorem witness_WritersOfEachElement :
    (∃ t, exec (.ld 0 1) State.reset = .next t ∧ gprWritten (.ld 0 1) ≠ some 1) ∧
    (∃ t, exec (.la 1) State.reset = .next t ∧ t.rm ≠ State.reset.rm) ∧
    (∃ t, exec (.mod 0 1) (at3 0 0 (some 1) (some 1) none) = .next t ∧ t.rf ≠ none) ∧
    (∃ t, exec (.call 1) State.reset = .next t ∧ t.stack[0] ≠ State.reset.stack[0] ∧ t.sp ≠ State.reset.sp) ∧
    (∃ t, exec (.wa 1 2) State.reset = .next t ∧ t.mem.read 2 ≠ State.reset.mem.read 2) :=
  ⟨⟨_, rfl, by decide⟩, ⟨_, rfl, by decide⟩, ⟨_, rfl, by decide⟩, ⟨_, rfl, by decide, by decide⟩, ⟨_, rfl, by decide⟩⟩
/-- Both faults of an ill-formed instruction, each met by the first access that cannot be made, and a well-formed one. -/
theorem witness_OnlyBadIndicesRaiseRegisterIndexFault :
    (Instr.add 0 12).wellFormed = false ∧ gprAccessed (.add 0 12) = [0] ++ 12 :: [] ∧
    (at3 0 0 (some 1) none none).reg 0 ≠ none ∧ (at3 0 0 none none none).reg 0 = none ∧
    (Instr.mv 12 11).wellFormed = false ∧ gprAccessed (.mv 12 11) = [11] ++ 12 :: [] ∧
    (Instr.add 11 0).wellFormed = true := by decide
/-- MV with both indices bad reports the source, ADD the destination. -/
theorem test_first_bad_index :
    stopped 0x1CF0 none none none = some (.haltedError, some (.registerIndexFault 15), some 3, 0x010) ∧
    stopped 0x2CF0 none none none = some (.haltedError, some (.registerIndexFault 12), some 3, 0x010) := by decide

/-! ## Witnesses: the host interface -/

theorem witness_ResetFromAnyState :
    ({ at3 0 1 none none none with hostMoves := [.reset, .idle] } : State).hostMoves = .reset :: [.idle] := rfl
/-- Budget 0 and budget 1. -/
theorem witness_RunStartsOrEndsAtOnce :
    (({ State.reset with hostMoves := [.run] } : State).hostMoves = .run :: [] ∧
      ({ State.reset with hostMoves := [.run] } : State).fsm = .ready ∧
      ({ State.reset with hostMoves := [.run] } : State).remaining = 0) ∧
    (({ State.reset with mem := [(0, 0x9000)], remaining := 1, loaded := true, hostMoves := [.run] } : State).hostMoves =
      .run :: [] ∧
      ({ State.reset with mem := [(0, 0x9000)], remaining := 1, loaded := true, hostMoves := [.run] } : State).fsm = .ready) :=
  ⟨⟨rfl, rfl, rfl⟩, rfl, rfl⟩
theorem witness_RefusedCommandsDoNothing :
    ({ State.reset with hostMoves := [.load (List.replicate 4097 0)] } : State).hostMoves =
      .load (List.replicate 4097 0) :: [] ∧ 4096 < (List.replicate 4097 (0 : Word)).length ∧
    ({ State.reset with loaded := true } : State).loaded = true ∧ ((at3 0 1 none none none).fsm ≠ .ready) ∧
    ({ at3 0 1 none none none with hostMoves := [.run] } : State).hostMoves = .run :: [] :=
  ⟨rfl, by rw [List.length_replicate]; decide, rfl, by decide, rfl⟩
theorem witness_HaltedStatesAbsorb :
    ({ State.reset with fsm := .haltedNormal } : State).halted ∧ ({ State.reset with fsm := .haltedError } : State).halted ∧
    ({ State.reset with fsm := .haltedNormal } : State).hostMoves.head? ≠ some .reset ∧
    State.reset.fsm = .ready ∧ State.reset.hostMoves.head? ∈ [none, some HostMove.idle] :=
  ⟨.inl rfl, .inr rfl, by decide, rfl, by decide⟩

/-! ## Witnesses: the invariant -/

/-- Ready, with a command to come. -/
theorem inv_before_command (m : HostMove) (rest : List HostMove) :
    ({ State.reset with hostMoves := m :: rest } : State).Inv where
  mem := rfl
  budget := Nat.zero_le _
  rd := rfl
  rs := rfl
  rm := by intro v h; cases h
  rf := by intro v h; cases h
  sp := Nat.zero_le _
  pushed := by intro k h hk; exact absurd hk (Nat.not_lt_zero k)
  slots := by intro k h v hv; simp [State.reset] at hv
  pc := Nat.zero_le _
  ready := fun _ => rfl
  unloaded := fun _ _ => ⟨rfl, rfl⟩
  running := by intro h; cases h
  haltedNormal := by intro h; cases h
  fault := ⟨fun h => absurd rfl h, fun h => by cases h⟩
  faultPc := by intro r h; cases h

/-- Running with one word at `p` and SP at `n`, every slot holding the address `r`. -/
def stacked (p w : Word) (n : Byte) (r : Word) : State :=
  { State.reset with
    pc := p, mem := [(p.toNat, w)], fsm := .running, remaining := 1, loaded := true, sp := n
    stack := Vector.replicate stackSlots (some r) }

theorem inv_stacked (p w : Word) (n : Byte) (r : Word) (hp : p.toNat < 0x1000) (hn : n.toNat ≤ 16) (hr : r.toNat < 0x1000) :
    (stacked p w n r).Inv where
  mem := by simp [stacked, Memory.wf, Memory.sortedFrom, memWords, hp]
  budget := by show 1 ≤ 4096; decide
  rd := rfl
  rs := rfl
  rm := by intro v h; cases h
  rf := by intro v h; cases h
  sp := hn
  pushed := by intro k h hk; simp [stacked]
  slots := by intro k h v hv; simp [stacked] at hv; subst hv; exact hr
  pc := by show p.toNat ≤ 0x1001; omega
  ready := by intro h; cases h
  unloaded := by intro h; cases h
  running := fun _ => Nat.one_pos
  haltedNormal := by intro h; cases h
  fault := ⟨fun h => absurd rfl h, fun h => by cases h⟩
  faultPc := by intro r h; cases h

/-- A run with no load before it. -/
theorem witness_RunStartsOrEndsAtOnce_unloaded :
    ({ State.reset with hostMoves := [.run] } : State).Inv ∧
    ({ State.reset with hostMoves := [.run] } : State).hostMoves = .run :: [] ∧
    State.reset.fsm = .ready ∧ State.reset.loaded = false :=
  ⟨inv_before_command _ _, rfl, rfl, rfl⟩
/-- As many words as fit, and a run to follow. -/
theorem witness_LoadFillsMemoryAndBudget :
    ({ State.reset with hostMoves := [.load (List.replicate 4096 7), .run] } : State).Inv ∧
    ({ State.reset with hostMoves := [.load (List.replicate 4096 7), .run] } : State).hostMoves =
      .load (List.replicate 4096 7) :: [.run] ∧
    State.reset.fsm = .ready ∧ State.reset.loaded = false ∧ (List.replicate 4096 (7 : Word)).length ≤ 4096 :=
  ⟨inv_before_command _ _, rfl, rfl, rfl, by rw [List.length_replicate]⟩
/-- A CALL from address 0xFFF with every slot but the last in use. -/
theorem witness_StepKeepsInvariant :
    (stacked 0xFFF 0xAFFF 15 0x100).Inv ∧ ∃ t, step (stacked 0xFFF 0xAFFF 15 0x100) = .next t ∧ t.sp = 16 :=
  ⟨inv_stacked _ _ _ _ (by decide) (by decide) (by decide), _, rfl, by decide⟩
/-- Both ends of the stack's range. -/
theorem witness_StackFaultsAreUnderflowAndOverflow :
    ((stacked 0 0xB000 0 0x100).Inv ∧ (stacked 0 0xB000 0 0x100).sp = 0) ∧
    ((stacked 0 0xA000 16 0x100).Inv ∧ (stacked 0 0xA000 16 0x100).sp = 16) :=
  ⟨⟨inv_stacked _ _ _ _ (by decide) (by decide) (by decide), rfl⟩,
    ⟨inv_stacked _ _ _ _ (by decide) (by decide) (by decide), rfl⟩⟩
/-- A jump to address 0x000, which lands on 0x001, and a skip at 0xFFF, which lands on 0x1001. -/
theorem witness_NoCycleLandsOnAddressZero :
    ((stacked 0x010 0x9000 0 0).Inv ∧ (stacked 0x010 0x9000 0 0).fsm = .running ∧ (stacked 0x010 0x9000 0 0).hostMoves = [] ∧
      ∃ t, step (stacked 0x010 0x9000 0 0) = .next t ∧ t.fsm ≠ .haltedError ∧ t.pc = 1) ∧
    ((stacked 0xFFF 0x7000 0 0).Inv ∧ ∃ t, step (stacked 0xFFF 0x7000 0 0) = .next t ∧ t.fsm ≠ .haltedError ∧ t.pc = 0x1001) :=
  ⟨⟨inv_stacked _ _ _ _ (by decide) (by decide) (by decide), rfl, rfl, _, rfl, by decide, by decide⟩,
    ⟨inv_stacked _ _ _ _ (by decide) (by decide) (by decide), _, rfl, by decide, by decide⟩⟩

/-! ## Witnesses: runs of one or two steps -/

theorem witness_RunEndsWithinBudget :
    (at3 0 0x9000 none none none).fsm = .running ∧ (at3 0 0x9000 none none none).hostMoves = [] ∧
    0 < (at3 0 0x9000 none none none).remaining ∧ 2 ≤ (at3 0 0x9000 none none none).remaining := by decide
/-- A SKP from two states whose registers differ. -/
theorem witness_ControlFlowIgnoresRegisters :
    SameControl (at3 0 0x7010 (some 1) none none) (at3 0 0x7010 none (some 2) none) ∧
    (∃ s', Host.Core.run core 1 (at3 0 0x7010 (some 1) none none) = .next s' ∧ s'.fsm ≠ .haltedError) ∧
    (∃ t', Host.Core.run core 1 (at3 0 0x7010 none (some 2) none) = .next t' ∧ t'.fsm ≠ .haltedError) :=
  ⟨⟨rfl, rfl, rfl, rfl, rfl, rfl, rfl, rfl, rfl⟩, ⟨_, rfl, by decide⟩, ⟨_, rfl, by decide⟩⟩

/-- CALL 0x004 at 0x000, LA 0x000 at 0x005 and RET at 0x006. -/
def callProgram : State :=
  { State.reset with
    mem := [(0, 0xA004), (5, 0xC000), (6, 0xB000)], fsm := .running, remaining := 4, loaded := true }

theorem witness_MatchingRetResumesAfterCall :
    callProgram.Fetches 0xA004 ∧ decode 0xA004 = .ok (.call 0x004) ∧ decode 0xB000 = .ok .ret ∧
    ∃ s₁ s₂ s₃, step callProgram = .next s₁ ∧
      (∀ j ≤ 1, ∀ u, Host.Core.run core j s₁ = .next u → u.fsm = .running ∧ callProgram.sp.toNat < u.sp.toNat) ∧
      Host.Core.run core 1 s₁ = .next s₂ ∧ s₂.sp = s₁.sp ∧ s₂.Fetches 0xB000 ∧ step s₂ = .next s₃ := by
  refine ⟨⟨rfl, rfl, by decide, by decide⟩, by decide, by decide, _, _, _, rfl, ?_, rfl, rfl,
    ⟨rfl, rfl, by decide, by decide⟩, rfl⟩
  intro j hj u hu
  match j, hj with
  | 0, _ => cases hu; exact ⟨rfl, by decide⟩
  | 1, _ => cases hu; exact ⟨rfl, by decide⟩

theorem witness_StoredWordIsFetchedNext :
    (at3 0x010 0xF511 none none none).Fetches 0xF511 ∧ decode 0xF511 = .ok (.wa 5 0x11) ∧
    (0x11 : Byte).toNat = (at3 0x010 0xF511 none none none).pc.toNat + 1 ∧
    ∃ t, step (at3 0x010 0xF511 none none none) = .next t ∧ t.fsm = .running :=
  ⟨fetches_at3 _ _ _ _ _ (by decide) (by decide), by decide, by decide, _, rfl, rfl⟩

theorem witness_AssemblerAgreesWithEncoder :
    ∀ i ∈ [Instr.sla 2 0, Instr.ld 11 0xFF], Assembler.assemblable i = true := by decide
theorem witness_AssemblerOutputLoads :
    (List.replicate 4096 (0 : Word)).length ≤ 4096 ∧ 4096 < (List.replicate 4097 (0 : Word)).length := by
  rw [List.length_replicate, List.length_replicate]; decide

end Sys2Proof.Tests
end

section
/-! PROOFS. A cycle is all or nothing: the PC that each handler leaves, and what no handler touches. -/

namespace Sys2Proof.Machine

/-! ## PC after a handler that succeeds -/

theorem word_add_one_add_one (p : Word) : p + 1 + 1 = p + 2 := by bv_omega

/-- RET pops at `SP − 1`. A slot that exists there means that SP was not 0, so the subtraction did not wrap. -/
theorem sp_eq_popped_add_one {s : State} (h : (s.sp - 1).toNat < stackSlots) : s.sp.toNat = (s.sp - 1).toNat + 1 := by
  simp only [stackSlots] at h
  bv_omega

/-- The PC that a handler leaves, with the increment that ends the cycle, is that of the table of 10_state.md R26. -/
theorem Handled.pcAfter {i : Instr} {s u : State} (h : Handled i s u) : PcAfter i s (u.pc + 1) := by
  cases i <;> simp only [Handled] at h <;> simp only [PcAfter]
  case ld => obtain ⟨_, rfl⟩ := h; simp
  case mv => obtain ⟨_, _, _, rfl⟩ := h; simp
  case add => obtain ⟨_, _, _, _, rfl⟩ := h; simp
  case sub => obtain ⟨_, _, _, _, rfl⟩ := h; simp
  case mult => obtain ⟨_, _, _, _, rfl⟩ := h; simp
  case div => obtain ⟨_, _, _, _, _, rfl⟩ := h; simp
  case mod => obtain ⟨_, _, _, _, _, rfl⟩ := h; simp
  case skp =>
    subst h; split
    · exact word_add_one_add_one _
    · rfl
  case sne =>
    subst h; split
    · rfl
    · exact word_add_one_add_one _
  case j => subst h; rfl
  case call => obtain ⟨_, rfl⟩ := h; rfl
  case ret => obtain ⟨hslot, v, hv, rfl⟩ := h; exact ⟨_, hslot, v, sp_eq_popped_add_one hslot, hv, rfl⟩
  case la => subst h; rfl
  case sla => obtain ⟨_, _, _, _, rfl⟩ := h; simp
  case sra => obtain ⟨_, _, _, _, rfl⟩ := h; simp
  case wa => subst h; rfl

/-- Settles O28: `exec_cases` gives the fault or the staged state, and the end of the cycle adds what the handler left. -/
theorem cycleIsAllOrNothing : Obligations.CycleIsAllOrNothing := by
  intro i s
  rcases exec_cases i s with ⟨c, _, hexec⟩ | ⟨u, hu, hexec⟩
  · exact .inl ⟨c, hexec⟩
  · obtain ⟨hremaining, hfsm, hfault, hir, hrd, hrs, hloaded, hmoves⟩ := hu.untouched
    refine .inr ⟨_, hexec, hu.pcAfter, ?_, ?_, hfault, hir, hrd, hrs, hloaded, hmoves⟩
    · rw [State.completed_remaining, hremaining]
    · rw [State.completed_fsm, hremaining, hfsm]

end Sys2Proof.Machine
end

section
/-! PROOFS. The assembler gives the encoder's words: its tokenizer undoes `sourceText`, each token of a statement has the
category that its slot accepts, and the digits of a statement build the word of its format. -/

namespace Sys2Proof.Assembler

/-! ## The tokenizer (30_encoding.md R82) -/

/-- What the tokenizer yields: a non-empty run of characters that are no separator. -/
def IsToken (t : List Char) : Prop := t ≠ [] ∧ ∀ c ∈ t, isSeparator c = false

/-- `IsToken` as a computation, for texts that are written out. -/
theorem isToken_iff {t : List Char} : IsToken t ↔ t.isEmpty = false ∧ t.any isSeparator = false := by
  simp [IsToken]

theorem splitFrom_append {t : List Char} (ht : ∀ c ∈ t, isSeparator c = false) (acc rest : List Char) :
    splitFrom acc (t ++ rest) = splitFrom (t.reverse ++ acc) rest := by
  induction t generalizing acc with
  | nil => rfl
  | cons c cs ih =>
    have hc : isSeparator c = false := ht c (by simp)
    simp [splitFrom, hc, ih fun d hd => ht d (by simp [hd])]

/-- A token with a space after it is split off. -/
theorem splitFrom_token {t : List Char} (ht : IsToken t) (rest : List Char) :
    splitFrom [] (t ++ ' ' :: rest) = t :: splitFrom [] rest := by
  rw [splitFrom_append ht.2, splitFrom, if_pos (by decide), if_neg (by simp [ht.1])]
  simp

theorem splitFrom_newline (rest : List Char) : splitFrom [] ('\n' :: rest) = splitFrom [] rest := rfl

theorem splitFrom_line {line : List (List Char)} (h : ∀ t ∈ line, IsToken t) (rest : List Char) :
    splitFrom [] (line.flatMap (fun t => t ++ [' ']) ++ rest) = line ++ splitFrom [] rest := by
  induction line with
  | nil => rfl
  | cons t ts ih =>
    obtain ⟨ht, hts⟩ := List.forall_mem_cons.mp h
    simp [splitFrom_token ht, ih hts]

/-- The tokens of source lines are the lines' tokens. -/
theorem tokens_sourceText {lines : List (List (List Char))} (h : ∀ line ∈ lines, ∀ t ∈ line, IsToken t) :
    tokens (sourceText lines) = lines.flatten := by
  unfold tokens
  induction lines with
  | nil => rfl
  | cons line lines ih =>
    obtain ⟨hline, hlines⟩ := List.forall_mem_cons.mp h
    rw [sourceText, splitFrom_line hline, splitFrom_newline, ih hlines, List.flatten_cons]

/-! ## ADDRESS tokens (30_encoding.md R83) -/

theorem hexDigit_hexChar : ∀ d : Nibble, hexDigit (hexChar d) = some d := by decide

theorem isSeparator_hexChar : ∀ d : Nibble, isSeparator (hexChar d) = false := by decide

theorem hexDigits_map_hexChar (ds : List Nibble) : hexDigits (ds.map hexChar) = some ds := by
  induction ds with
  | nil => rfl
  | cons d ds ih => simp [hexDigits, hexDigit_hexChar, ih]

/-- The ADDRESS that spells `ds`. -/
def addressText (ds : List Nibble) : List Char := '0' :: 'x' :: ds.map hexChar

theorem addr8Text_eq (v : Byte) : addr8Text v = addressText [v.extractLsb' 4 4, v.extractLsb' 0 4] := rfl

theorem addr12Text_eq (v : Addr) :
    addr12Text v = addressText [v.extractLsb' 8 4, v.extractLsb' 4 4, v.extractLsb' 0 4] := rfl

theorem isToken_addressText (ds : List Nibble) : IsToken (addressText ds) := by
  refine ⟨List.cons_ne_nil _ _, fun c hc => ?_⟩
  simp only [addressText, List.mem_cons, List.mem_map] at hc
  rcases hc with rfl | rfl | ⟨d, _, rfl⟩
  · rfl
  · rfl
  · exact isSeparator_hexChar d

theorem addressToken_addressText (d : Nibble) (ds : List Nibble) :
    addressToken (addressText (d :: ds)) = some (d :: ds) := hexDigits_map_hexChar (d :: ds)

theorem head_mnemonicText (m : Mnemonic) : (mnemonicText m).toList.head? ≠ some '0' := by
  cases m <;> decide

theorem head_registerNames : ∀ n ∈ registerNames, n.toList.head? ≠ some '0' := by decide

/-- A text that begins with the digit 0 is no mnemonic and no register name, so `0x` and digits are an ADDRESS. -/
theorem classify_addressText (d : Nibble) (ds : List Nibble) :
    classify (addressText (d :: ds)) = .address (d :: ds) := by
  have hhead : (addressText (d :: ds)).head? = some '0' := rfl
  have hmnemonic : mnemonics.find? (fun m => (mnemonicText m).toList == addressText (d :: ds)) = none :=
    List.find?_eq_none.mpr fun m _ e => head_mnemonicText m (by rw [beq_iff_eq.mp e, hhead])
  have hregister : registerNames.findIdx? (fun n => n.toList == addressText (d :: ds)) = none :=
    List.findIdx?_eq_none_iff.mpr fun n hn =>
      beq_eq_false_iff_ne.mpr fun e => head_registerNames n hn (by rw [e, hhead])
  simp only [classify, hmnemonic, hregister, addressToken_addressText]

/-! ## OPCODE and REGISTER tokens (30_encoding.md R83, R84) -/

theorem isToken_mnemonicText (m : Mnemonic) : IsToken (mnemonicText m).toList := by
  cases m <;> exact isToken_iff.mpr ⟨rfl, rfl⟩

theorem classify_mnemonicText (m : Mnemonic) : classify (mnemonicText m).toList = .opcode m := by
  cases m <;> rfl

theorem isToken_registerText : ∀ i : Nibble, isGpr i = true → IsToken (registerText i) := by
  simp only [isToken_iff]
  decide

theorem classify_registerText : ∀ i : Nibble, isGpr i = true → classify (registerText i) = .register i := by decide

/-! ## The operands of a statement (30_encoding.md R86) -/

/-- The texts are tokens that fill the slots of mnemonic `m` in order, and their operand digits, joined, are `ds`. -/
inductive OperandsRead (m : Mnemonic) : List Slot → List (List Char) → List Nibble → Prop where
  | nil : OperandsRead m [] [] []
  | cons {slot slots t ts ds es} (htoken : IsToken t) (hdigits : operandDigits m slot (classify t) = .ok ds)
      (hrest : OperandsRead m slots ts es) : OperandsRead m (slot :: slots) (t :: ts) (ds ++ es)

theorem OperandsRead.isToken {m : Mnemonic} {slots : List Slot} {toks : List (List Char)} {ds : List Nibble}
    (h : OperandsRead m slots toks ds) : ∀ t ∈ toks, IsToken t := by
  induction h with
  | nil => simp
  | cons htoken _ _ ih => exact List.forall_mem_cons.mpr ⟨htoken, ih⟩

/-- Inside a statement whose open slots the tokens fill, the assembler emits the word of all its digits and goes on. -/
theorem assembleFrom_pending {m : Mnemonic} {slot : Slot} {rest : List Slot} {toks more : List (List Char)}
    {ds es : List Nibble} {ws : List Word} (h : OperandsRead m (slot :: rest) toks es)
    (hmore : assembleFrom none more = .ok ws) :
    assembleFrom (some ⟨m, ds, slot, rest⟩) (toks ++ more) = .ok (wordOfDigits (ds ++ es) :: ws) := by
  induction rest generalizing slot toks ds es with
  | nil =>
    obtain _ | ⟨_, hdigits, ⟨⟩⟩ := h
    simp only [List.cons_append, List.nil_append, List.append_nil, assembleFrom, hdigits, hmore]
    rfl
  | cons next rest ih =>
    obtain _ | ⟨_, hdigits, hrest⟩ := h
    simp only [List.cons_append, assembleFrom, hdigits, ih hrest, List.append_assoc]

/-- A statement whose operands fill its grammar row assembles to the word of its opcode and digits. -/
theorem assembleFrom_statement {m : Mnemonic} {toks more : List (List Char)} {ds : List Nibble} {ws : List Word}
    (h : OperandsRead m (grammar m) toks ds) (hmore : assembleFrom none more = .ok ws) :
    assembleFrom none ((mnemonicText m).toList :: toks ++ more) = .ok (wordOfDigits (opcodeMap.code m :: ds) :: ws) := by
  rw [List.cons_append, assembleFrom, classify_mnemonicText]
  cases hslots : grammar m with
  | nil =>
    rw [hslots] at h
    cases h
    simp only [List.nil_append, hslots, hmore]
    rfl
  | cons slot rest =>
    rw [hslots] at h
    simp only [hslots, assembleFrom_pending h hmore, List.singleton_append]

/-! ## The shapes of the grammar (30_encoding.md R85) and the words of their digits (R73, R88) -/

theorem operandDigits_registerText (m : Mnemonic) {i : Nibble} (h : isGpr i = true) :
    operandDigits m .register (classify (registerText i)) = .ok [i] := by
  rw [classify_registerText i h]; rfl

theorem operandsRead_register (m : Mnemonic) {rx : Nibble} (hx : isGpr rx = true) :
    OperandsRead m [.register] [registerText rx] [rx] :=
  .cons (isToken_registerText _ hx) (operandDigits_registerText m hx) .nil

theorem operandsRead_pair (m : Mnemonic) {rx ry : Nibble} (hx : isGpr rx = true) (hy : isGpr ry = true) :
    OperandsRead m [.register, .register] [registerText rx, registerText ry] [rx, ry] :=
  .cons (isToken_registerText _ hx) (operandDigits_registerText m hx) (operandsRead_register m hy)

/-- LD's and WA's second slot accept an ADDRESS of two digits (R87). -/
theorem operandsRead_immediate {m : Mnemonic} {slot : Slot} (hslot : slot ≠ .register) (hwidth : addressWidth m = 2)
    {rx : Nibble} (hx : isGpr rx = true) (v : Byte) :
    OperandsRead m [.register, slot] [registerText rx, addr8Text v] [rx, v.extractLsb' 4 4, v.extractLsb' 0 4] := by
  rw [addr8Text_eq]
  refine .cons (isToken_registerText _ hx) (operandDigits_registerText m hx) (.cons (ds := [_, _]) (isToken_addressText _) ?_ .nil)
  rw [classify_addressText]
  cases slot with
  | register => exact absurd rfl hslot
  | numberOrAddress => exact if_pos hwidth.symm
  | address => exact if_pos hwidth.symm

/-- J, CALL and LA take an ADDRESS of three digits (R87). -/
theorem operandsRead_address {m : Mnemonic} (hwidth : addressWidth m = 3) (v : Addr) :
    OperandsRead m [.address] [addr12Text v] [v.extractLsb' 8 4, v.extractLsb' 4 4, v.extractLsb' 0 4] := by
  rw [addr12Text_eq]
  refine .cons (ds := [_, _, _]) (isToken_addressText _) ?_ .nil
  rw [classify_addressText]
  exact if_pos hwidth.symm

theorem wordOfDigits_pair (op rx ry : Nibble) : wordOfDigits [op, rx, ry] = formatRR op rx ry := rfl

/-- The digits of SLA and SRA end with rx; the zero that fills the place of ry is `ry = 0` (R93). -/
theorem wordOfDigits_register (op rx : Nibble) : wordOfDigits [op, rx] = formatRR op rx 0 := rfl

theorem wordOfDigits_immediate (op rx : Nibble) (v : Byte) :
    wordOfDigits [op, rx, v.extractLsb' 4 4, v.extractLsb' 0 4] = formatRI op rx v := by
  apply BitVec.eq_of_toNat_eq
  simp only [wordOfDigits, List.cons_append, toNat_append_eq, toNat_field, toNat_formatRI]
  omega

theorem wordOfDigits_address (op : Nibble) (v : Addr) :
    wordOfDigits [op, v.extractLsb' 8 4, v.extractLsb' 4 4, v.extractLsb' 0 4] = formatA op v := by
  apply BitVec.eq_of_toNat_eq
  simp only [wordOfDigits, List.cons_append, toNat_append_eq, toNat_field, toNat_formatA]
  omega

theorem wordOfDigits_opcode (op : Nibble) : wordOfDigits [op] = formatN op := by
  apply BitVec.eq_of_toNat_eq
  have zero : (0 : Nibble).toNat = 0 := rfl
  simp only [wordOfDigits, List.cons_append, List.nil_append, toNat_append_eq, toNat_formatN, zero]
  omega

/-! ## The statement of an instruction (30_encoding.md R94) -/

/-- The operand tokens of an instruction's statement. -/
def operandTokens (i : Instr) : List (List Char) := (statementTokens i).tail

theorem statementTokens_eq (i : Instr) : statementTokens i = (mnemonicText i.mnemonic).toList :: operandTokens i := rfl

/-- The operands of an expressible instruction fill its grammar row with the digits of its encoding. -/
theorem operandsRead_of_assemblable {i : Instr} (h : assemblable i = true) :
    ∃ ds, OperandsRead i.mnemonic (grammar i.mnemonic) (operandTokens i) ds ∧
      wordOfDigits (opcodeMap.code i.mnemonic :: ds) = encode i := by
  cases i <;> simp only [assemblable, Bool.and_eq_true, decide_eq_true_eq] at h
  case ld rx v => exact ⟨_, operandsRead_immediate (by decide) rfl h v, wordOfDigits_immediate ..⟩
  case mv rx ry => exact ⟨_, operandsRead_pair _ h.1 h.2, wordOfDigits_pair ..⟩
  case add rx ry => exact ⟨_, operandsRead_pair _ h.1 h.2, wordOfDigits_pair ..⟩
  case sub rx ry => exact ⟨_, operandsRead_pair _ h.1 h.2, wordOfDigits_pair ..⟩
  case mult rx ry => exact ⟨_, operandsRead_pair _ h.1 h.2, wordOfDigits_pair ..⟩
  case div rx ry => exact ⟨_, operandsRead_pair _ h.1 h.2, wordOfDigits_pair ..⟩
  case mod rx ry => exact ⟨_, operandsRead_pair _ h.1 h.2, wordOfDigits_pair ..⟩
  case skp rx ry => exact ⟨_, operandsRead_pair _ h.1 h.2, wordOfDigits_pair ..⟩
  case sne rx ry => exact ⟨_, operandsRead_pair _ h.1 h.2, wordOfDigits_pair ..⟩
  case j v => exact ⟨_, operandsRead_address rfl v, wordOfDigits_address ..⟩
  case call v => exact ⟨_, operandsRead_address rfl v, wordOfDigits_address ..⟩
  case ret => exact ⟨_, .nil, wordOfDigits_opcode _⟩
  case la v => exact ⟨_, operandsRead_address rfl v, wordOfDigits_address ..⟩
  case sla rx ry => obtain ⟨hx, rfl⟩ := h; exact ⟨_, operandsRead_register _ hx, wordOfDigits_register ..⟩
  case sra rx ry => obtain ⟨hx, rfl⟩ := h; exact ⟨_, operandsRead_register _ hx, wordOfDigits_register ..⟩
  case wa rx v => exact ⟨_, operandsRead_immediate (by decide) rfl h v, wordOfDigits_immediate ..⟩

theorem isToken_of_mem_statementTokens {i : Instr} (h : assemblable i = true) :
    ∀ t ∈ statementTokens i, IsToken t := by
  obtain ⟨ds, hread, _⟩ := operandsRead_of_assemblable h
  exact List.forall_mem_cons.mpr ⟨isToken_mnemonicText _, hread.isToken⟩

/-- The statements of expressible instructions, one after another, assemble to their encodings. -/
theorem assembleFrom_statements {is : List Instr} (h : ∀ i ∈ is, assemblable i = true) :
    assembleFrom none (is.map statementTokens).flatten = .ok (is.map encode) := by
  induction is with
  | nil => rfl
  | cons i is ih =>
    obtain ⟨hi, his⟩ := List.forall_mem_cons.mp h
    obtain ⟨ds, hread, hword⟩ := operandsRead_of_assemblable hi
    rw [List.map_cons, List.flatten_cons, statementTokens_eq, assembleFrom_statement hread (ih his), hword, List.map_cons]

/-- Settles O48: the tokenizer gives the statements' tokens back, and they assemble by induction over the list. -/
theorem assemblerAgreesWithEncoder : Obligations.AssemblerAgreesWithEncoder := by
  intro is h
  have htokens : ∀ line ∈ is.map statementTokens, ∀ t ∈ line, IsToken t :=
    List.forall_mem_map.mpr fun i hi => isToken_of_mem_statementTokens (h i hi)
  rw [assemble, tokens_sourceText htokens, assembleFrom_statements h]

end Sys2Proof.Assembler
end

section
/-! PROOFS. Who writes what: the handlers sorted by the element that they write, and what that leaves in each element. -/

namespace Sys2Proof.Machine

/-! ## The handlers sorted by the element that they write -/

/-- The writes of the handler of `i`, when it succeeds on `s`. Of the PC only what R27 needs is kept: it stays, moves
on by one word, or takes a target. -/
inductive Effect (i : Instr) (s : State) : State → Prop where
  | gpr (rx : Nibble) (v : Byte) (hi : gprWritten i = some rx) : Effect i s (s.withReg rx v)
  | rf (w : Word) (hi : writesRf i.mnemonic) (hw : w.toNat < 0x100) : Effect i s { s with rf := some w }
  | gprRf (rx : Nibble) (v : Byte) (w : Word) (hi : gprWritten i = some rx) (hrf : writesRf i.mnemonic)
      (hw : w.toNat < 0x100) : Effect i s { s.withReg rx v with rf := some w }
  | skip (p : Word) (hp : p = s.pc ∨ p = s.pc + 1) : Effect i s { s with pc := p }
  | jump (a : Addr) : Effect i s { s with pc := zext 16 a }
  | call (a : Addr) (hi : i = .call a) (h : s.sp.toNat < stackSlots) :
      Effect i s { s with stack := s.stack.set s.sp.toNat (some s.pc) h, sp := s.sp + 1, pc := zext 16 a }
  | ret (v : Word) (hi : i = .ret) (h : (s.sp - 1).toNat < stackSlots) (hv : s.stack[(s.sp - 1).toNat] = some v) :
      Effect i s { s with sp := s.sp - 1, pc := v }
  | la (a : Addr) (hi : i = .la a) : Effect i s { s with rm := some (zext 16 a) }
  | wa (rx : Nibble) (imm8 : Byte) (hi : i = .wa rx imm8) :
      Effect i s { s with mem := s.mem.write (storeAddr imm8) (zext 16 rx) }

/-! The values of RF, and the 12-bit targets, are zero-extended (10_state.md R28, R30; 30_encoding.md R75). -/

theorem toNat_rfOfRemainder_lt (r : Byte) : (rfOfRemainder r).toNat < 0x100 := by
  simp only [rfOfRemainder, BitVec.toNat_setWidth]
  omega

theorem toNat_rfOfShift_lt (r : Byte) : (rfOfShift r).toNat < 0x100 := by
  simp only [rfOfShift, BitVec.toNat_setWidth]
  omega

theorem toNat_zext_addr_lt (a : Addr) : (zext 16 a).toNat < 0x1000 := by
  simp only [BitVec.toNat_setWidth]
  omega

theorem Handled.effect {i : Instr} {s u : State} (h : Handled i s u) : Effect i s u := by
  cases i <;> simp only [Handled] at h
  case ld rx v => obtain ⟨_, rfl⟩ := h; exact .gpr rx _ rfl
  case mv rx ry => obtain ⟨_, _, _, rfl⟩ := h; exact .gpr rx _ rfl
  case add rx ry => obtain ⟨_, _, _, _, rfl⟩ := h; exact .gpr rx _ rfl
  case sub rx ry => obtain ⟨_, _, _, _, rfl⟩ := h; exact .gpr rx _ rfl
  case mult rx ry => obtain ⟨_, _, _, _, rfl⟩ := h; exact .gpr rx _ rfl
  case div rx ry => obtain ⟨_, _, _, _, _, rfl⟩ := h; exact .gpr rx _ rfl
  case mod rx ry => obtain ⟨_, _, _, _, _, rfl⟩ := h; exact .rf _ (.inl rfl) (toNat_rfOfRemainder_lt _)
  case skp rx ry => subst h; exact .skip _ (by split <;> simp)
  case sne rx ry => subst h; exact .skip _ (by split <;> simp)
  case j a => subst h; exact .jump a
  case call a => obtain ⟨hsp, rfl⟩ := h; exact .call a rfl hsp
  case ret => obtain ⟨hsp, v, hv, rfl⟩ := h; exact .ret v rfl hsp hv
  case la a => subst h; exact .la a rfl
  case sla rx ry => obtain ⟨_, _, _, _, rfl⟩ := h; exact .gprRf rx _ _ rfl (.inr (.inl rfl)) (toNat_rfOfShift_lt _)
  case sra rx ry => obtain ⟨_, _, _, _, rfl⟩ := h; exact .gprRf rx _ _ rfl (.inr (.inr rfl)) (toNat_rfOfShift_lt _)
  case wa rx v => subst h; exact .wa rx v rfl

/-! ## What a handler leaves in each element -/

section Elements

variable {i : Instr} {s u : State}

theorem Effect.reg_eq (h : Effect i s u) {k : Nibble} (hk : gprWritten i ≠ some k) : u.reg k = s.reg k := by
  cases h with
  | gpr rx v hi => exact State.reg_withReg_of_ne s rx k v fun e => hk (e ▸ hi)
  | gprRf rx v w hi => exact State.reg_withReg_of_ne s rx k v fun e => hk (e ▸ hi)
  | _ => rfl

theorem Effect.rm_cases (h : Effect i s u) : u.rm = s.rm ∨ ∃ a, i = .la a ∧ u.rm = some (zext 16 a) := by
  cases h with
  | la a hi => exact .inr ⟨a, hi, rfl⟩
  | _ => exact .inl (by simp)

theorem Effect.rf_cases (h : Effect i s u) :
    u.rf = s.rf ∨ (writesRf i.mnemonic ∧ ∃ w, w.toNat < 0x100 ∧ u.rf = some w) := by
  cases h with
  | rf w hi hw => exact .inr ⟨hi, w, hw, rfl⟩
  | gprRf rx v w _ hi hw => exact .inr ⟨hi, w, hw, rfl⟩
  | _ => exact .inl (by simp)

theorem Effect.mem_cases (h : Effect i s u) :
    u.mem = s.mem ∨ ∃ rx imm8, i = .wa rx imm8 ∧ u.mem = s.mem.write (storeAddr imm8) (zext 16 rx) := by
  cases h with
  | wa rx imm8 hi => exact .inr ⟨rx, imm8, hi, rfl⟩
  | _ => exact .inl (by simp)

/-- The call stack and SP: kept, pushed by CALL or popped by RET (44_control_transfer.md R192, R195). -/
theorem Effect.stack_cases (h : Effect i s u) :
    (u.stack = s.stack ∧ u.sp = s.sp) ∨
    (∃ (a : Addr) (hsp : s.sp.toNat < stackSlots),
      i = .call a ∧ u.stack = s.stack.set s.sp.toNat (some s.pc) hsp ∧ u.sp = s.sp + 1) ∨
    (i = .ret ∧ (s.sp - 1).toNat < stackSlots ∧ u.stack = s.stack ∧ u.sp = s.sp - 1) := by
  cases h with
  | call a hi hsp => exact .inr (.inl ⟨a, hsp, hi, rfl, rfl⟩)
  | ret v hi hsp => exact .inr (.inr ⟨hi, hsp, rfl, rfl⟩)
  | _ => exact .inl (by simp)

end Elements

/-! ## Who writes what -/

/-- Settles O29: a fault changes none of the elements, and a completed cycle changes what its handler's `Effect` says. -/
theorem writersOfEachElement : Obligations.WritersOfEachElement := by
  intro i s t hexec
  rcases exec_cases i s with ⟨c, _, e⟩ | ⟨u, hu, e⟩ <;> rw [e] at hexec <;> cases hexec
  · exact ⟨fun _ _ => rfl, fun h => absurd rfl h, fun h => absurd rfl h, fun _ _ h => absurd rfl h,
      fun h => absurd rfl h, fun _ h => absurd rfl h, rfl, rfl⟩
  · have heffect := hu.effect
    obtain ⟨_, _, _, _, hrd, hrs, _, _⟩ := hu.untouched
    refine ⟨fun k hk => heffect.reg_eq hk, fun hne => ?_, fun hne => ?_, fun k hk hne => ?_, fun hne => ?_,
      fun a hne => ?_, hrd, hrs⟩
    · rcases heffect.rm_cases with same | ⟨a, rfl, _⟩
      · exact absurd same hne
      · rfl
    · rcases heffect.rf_cases with same | ⟨hwrites, _⟩
      · exact absurd same hne
      · exact hwrites
    · rw [State.completed_stack] at hne
      rcases heffect.stack_cases with ⟨same, _⟩ | ⟨a, hsp, rfl, push, _⟩ | ⟨_, _, same, _⟩
      · exact absurd (by rw [same]) hne
      · refine ⟨rfl, ?_⟩
        by_contra hk'
        exact hne (by simp only [push]; exact Vector.getElem_set_ne hsp hk (Ne.symm hk'))
      · exact absurd (by rw [same]) hne
    · rcases heffect.stack_cases with ⟨_, same⟩ | ⟨a, _, rfl, _⟩ | ⟨rfl, _⟩
      · exact absurd same hne
      · exact .inl rfl
      · exact .inr rfl
    · rw [State.completed_mem] at hne
      rcases heffect.mem_cases with same | ⟨rx, imm8, rfl, write⟩
      · exact absurd (by rw [same]) hne
      · refine ⟨rx, imm8, rfl, ?_⟩
        by_contra ha
        exact hne (by rw [write, Memory.read_write_of_ne _ _ ha])

end Sys2Proof.Machine
end

section
/-! PROOFS. Register indices: an ill-formed instruction faults at its first access that cannot be made. -/

namespace Sys2Proof.Machine

/-! ## The accesses of an instruction -/

/-- `c` is the fault of the first of the accesses of `i` that cannot be made (40_execution_engine.md R131 to R133). -/
def AccessRaises (i : Instr) (s : State) (c : FaultCause) : Prop :=
  ∃ before k after, gprAccessed i = before ++ k :: after ∧ (∀ j ∈ before, s.reg j ≠ none) ∧ ReadRaises s k c

/-- The accesses are exactly those that well-formedness asks about (30_encoding.md R79). -/
theorem wellFormed_iff (i : Instr) : i.wellFormed = true ↔ ∀ k ∈ gprAccessed i, k.toNat < numGpr := by
  cases i with
  | mv rx ry => simp [Instr.wellFormed, gprAccessed, isGpr, and_comm]
  | _ => simp [Instr.wellFormed, gprAccessed, isGpr]

theorem wellFormed_eq_false_iff (i : Instr) : i.wellFormed = false ↔ ∃ k ∈ gprAccessed i, numGpr ≤ k.toNat := by
  rw [← Bool.not_eq_true, wellFormed_iff]
  push Not
  rfl

theorem wellFormed_of_pair {i : Instr} {s : State} {rx ry : Nibble} {a b : Byte} (hi : gprAccessed i = [rx, ry])
    (hx : s.reg rx = some a) (hy : s.reg ry = some b) : i.wellFormed = true :=
  (wellFormed_iff i).mpr (by simp [hi, State.lt_of_reg_eq_some hx, State.lt_of_reg_eq_some hy])

theorem accessRaises_first {i : Instr} {s : State} {c : FaultCause} {k : Nibble} {after : List Nibble}
    (hi : gprAccessed i = k :: after) (h : ReadRaises s k c) : AccessRaises i s c :=
  ⟨[], k, after, hi, by simp, h⟩

theorem accessRaises_second {i : Instr} {s : State} {c : FaultCause} {j k : Nibble}
    (hi : gprAccessed i = [j, k]) (hj : s.reg j ≠ none) (h : ReadRaises s k c) : AccessRaises i s c :=
  ⟨[j], k, [], hi, by simpa using hj, h⟩

theorem PairRaises.accessRaises {i : Instr} {s : State} {c : FaultCause} {rx ry : Nibble}
    (h : PairRaises s rx ry c) (hi : gprAccessed i = [rx, ry]) : AccessRaises i s c := by
  rcases h with h | ⟨hx, h⟩
  · exact accessRaises_first hi h
  · exact accessRaises_second hi hx h

/-- A fault is that of an access, or every access was made and the fault is of another kind. -/
theorem Raises.accessRaises_or {i : Instr} {s : State} {c : FaultCause} (h : Raises i s c) :
    AccessRaises i s c ∨ (i.wellFormed = true ∧ ∀ k, c ≠ .registerIndexFault k) := by
  cases i <;> simp only [Raises] at h
  case ld rx v => exact .inl (accessRaises_first rfl (.inl h))
  case mv rx ry =>
    rcases h with h | ⟨hy, h⟩
    · exact .inl (accessRaises_first rfl h)
    · exact .inl (accessRaises_second rfl hy (.inl h))
  case add => exact .inl (h.accessRaises rfl)
  case sub => exact .inl (h.accessRaises rfl)
  case mult => exact .inl (h.accessRaises rfl)
  case div rx ry =>
    rcases h with h | ⟨hx, hy, rfl⟩
    · exact .inl (h.accessRaises rfl)
    · obtain ⟨_, hx⟩ := Option.ne_none_iff_exists'.mp hx
      exact .inr ⟨wellFormed_of_pair rfl hx hy, by simp⟩
  case mod rx ry =>
    rcases h with h | ⟨hx, hy, rfl⟩
    · exact .inl (h.accessRaises rfl)
    · obtain ⟨_, hx⟩ := Option.ne_none_iff_exists'.mp hx
      exact .inr ⟨wellFormed_of_pair rfl hx hy, by simp⟩
  case call => obtain ⟨_, rfl⟩ := h; exact .inr ⟨rfl, by simp⟩
  case ret => rcases h with ⟨_, rfl⟩ | ⟨_, _, rfl⟩ <;> exact .inr ⟨rfl, by simp⟩
  case sla => exact .inl (h.accessRaises rfl)
  case sra => exact .inl (h.accessRaises rfl)

/-- A handler that succeeds made all of its accesses. -/
theorem Handled.wellFormed {i : Instr} {s u : State} (h : Handled i s u) : i.wellFormed = true := by
  cases i <;> simp only [Handled] at h
  case ld => obtain ⟨hx, _⟩ := h; exact (wellFormed_iff _).mpr (by simp [gprAccessed, hx])
  case mv =>
    obtain ⟨_, hy, hx, _⟩ := h
    exact (wellFormed_iff _).mpr (by simp [gprAccessed, hx, State.lt_of_reg_eq_some hy])
  case add => obtain ⟨_, _, hx, hy, _⟩ := h; exact wellFormed_of_pair rfl hx hy
  case sub => obtain ⟨_, _, hx, hy, _⟩ := h; exact wellFormed_of_pair rfl hx hy
  case mult => obtain ⟨_, _, hx, hy, _⟩ := h; exact wellFormed_of_pair rfl hx hy
  case div => obtain ⟨_, _, hx, hy, _⟩ := h; exact wellFormed_of_pair rfl hx hy
  case mod => obtain ⟨_, _, hx, hy, _⟩ := h; exact wellFormed_of_pair rfl hx hy
  case sla => obtain ⟨_, _, hx, hy, _⟩ := h; exact wellFormed_of_pair rfl hx hy
  case sra => obtain ⟨_, _, hx, hy, _⟩ := h; exact wellFormed_of_pair rfl hx hy
  all_goals rfl

/-- A fault keeps the budget. A completed cycle lowers it, or has none left and ends in HaltedNormal. So no state is the
outcome of both. -/
theorem completed_ne_faulted {s u : State} (h : u.remaining = s.remaining) (p : Word) (c : FaultCause) :
    u.completed p ≠ s.faulted c := by
  intro e
  have hremaining : u.remaining - 1 = s.remaining := congrArg State.remaining e
  have hfsm : (u.completed p).fsm = .haltedError := congrArg State.fsm e
  rw [State.completed_fsm, if_pos (by omega)] at hfsm
  cases hfsm

theorem faulted_injective {s : State} {c d : FaultCause} (h : s.faulted c = s.faulted d) : c = d := by
  have hfault := congrArg State.fault h
  simpa using hfault

/-- The fault that an instruction is seen to take is one that its handler raises. -/
theorem raises_of_exec {i : Instr} {s : State} {c : FaultCause} (h : exec i s = .next (s.faulted c)) : Raises i s c := by
  rcases exec_cases i s with ⟨d, hd, e⟩ | ⟨u, hu, e⟩ <;> rw [e] at h <;> injection h with h
  · exact faulted_injective h ▸ hd
  · exact absurd h (completed_ne_faulted hu.untouched.1 _ _)

theorem exec_of_not_wellFormed {i : Instr} {s : State} (h : i.wellFormed = false) :
    ∃ c, AccessRaises i s c ∧ exec i s = .next (s.faulted c) := by
  rcases exec_cases i s with ⟨c, hc, e⟩ | ⟨u, hu, _⟩
  · rcases hc.accessRaises_or with haccess | ⟨hwf, _⟩
    · exact ⟨c, haccess, e⟩
    · exact absurd hwf (by simp [h])
  · exact absurd hu.wellFormed (by simp [h])

theorem not_raises_registerIndexFault {i : Instr} {s : State} (h : i.wellFormed = true) (k : Nibble) :
    ¬ Raises i s (.registerIndexFault k) := by
  intro hraises
  rcases hraises.accessRaises_or with ⟨before, j, after, hi, _, ⟨hj, _⟩ | ⟨_, _, e⟩⟩ | ⟨_, hother⟩
  · exact absurd ((wellFormed_iff i).mp h j (by simp [hi])) (Nat.not_lt.mpr hj)
  · cases e
  · exact hother k rfl

/-- Settles O30: `AccessRaises` names the access that an ill-formed instruction faults on. -/
theorem onlyBadIndicesRaiseRegisterIndexFault : Obligations.OnlyBadIndicesRaiseRegisterIndexFault := by
  intro i s
  refine ⟨wellFormed_eq_false_iff i, fun hwf => ?_, fun hwf k e => not_raises_registerIndexFault hwf k (raises_of_exec e)⟩
  obtain ⟨c, ⟨before, k, after, hi, hbefore, hraises⟩, hexec⟩ := exec_of_not_wellFormed (s := s) hwf
  refine ⟨before, k, after, hi, hbefore, ?_⟩
  rcases hraises with ⟨hk, rfl⟩ | ⟨hk, hreg, rfl⟩
  · exact .inl ⟨hk, hexec⟩
  · exact .inr ⟨hk, hreg, hexec⟩

end Sys2Proof.Machine
end

section
/-! PROOFS. The invariant: the reset state meets it, and every step keeps it, element by element. -/

namespace Sys2Proof.Machine

/-! ## The state after reset (10_state.md R39) -/

theorem reset_gpr (k : Nat) (h : k < numGpr) : State.reset.gpr[k] = none := by
  simp [State.reset]

theorem reset_stack (k : Nat) (h : k < stackSlots) : State.reset.stack[k] = none := by
  simp [State.reset]

/-- Settles O33: every element is read off the reset state. -/
theorem resetValues : Obligations.ResetValues :=
  ⟨reset_gpr, rfl, rfl, rfl, rfl, rfl, rfl, reset_stack, rfl, Memory.read_nil, rfl, rfl, rfl⟩

/-- Settles O40: nothing is written, SP is 0 and the engine is Ready. -/
theorem resetMeetsInvariant : Obligations.ResetMeetsInvariant where
  mem := Memory.wf_nil
  budget := Nat.zero_le _
  rd := rfl
  rs := rfl
  rm := nofun
  rf := nofun
  sp := Nat.zero_le _
  pushed := fun k _ h => absurd h (Nat.not_lt_zero k)
  slots := fun k h v hv => by rw [reset_stack k h] at hv; cases hv
  pc := Nat.zero_le _
  ready := fun _ => rfl
  unloaded := fun _ _ => ⟨rfl, rfl⟩
  running := nofun
  haltedNormal := fun _ => rfl
  fault := ⟨fun h => absurd rfl h, nofun⟩
  faultPc := nofun

/-! ## The invariant along the host's moves -/

/-- The invariant does not look at the host's coming moves. -/
theorem State.Inv.withHostMoves {s : State} (hs : s.Inv) (moves : List HostMove) :
    { s with hostMoves := moves }.Inv :=
  { hs with ready := fun h => congrArg (fun r : State => { r with hostMoves := moves }) (hs.ready h) }

theorem State.Inv.commandReset (s : State) : (commandReset s).Inv := resetMeetsInvariant.withHostMoves s.hostMoves

theorem State.Inv.commandLoad {s : State} (hs : s.Inv) (ws : List Word) : (commandLoad ws s).Inv := by
  unfold Machine.commandLoad
  split
  case isTrue h =>
    obtain ⟨hready, _, hlength⟩ := h
    exact { hs with
      mem := Memory.wf_loadFrom _ _ _ hs.mem
      budget := hlength
      ready := fun _ => congrArg
        (fun r : State => { r with mem := s.mem.loadFrom 0 ws, remaining := ws.length, loaded := true }) (hs.ready hready)
      unloaded := nofun
      running := fun h => absurd (hready.symm.trans h) nofun
      haltedNormal := fun h => absurd (hready.symm.trans h) nofun }
  case isFalse => exact hs

theorem State.Inv.fault_eq_none {s : State} (hs : s.Inv) (h : s.fsm ≠ .haltedError) : s.fault = none := by
  by_contra hfault
  exact h (hs.fault.mp hfault)

theorem commandRun_of_ready {s : State} (h : s.fsm = .ready) :
    commandRun s = { s with fsm := if s.remaining = 0 then .haltedNormal else .running } := by
  simp only [Machine.commandRun, h]

theorem commandRun_of_not_ready {s : State} (h : s.fsm ≠ .ready) : commandRun s = s := by
  unfold Machine.commandRun
  cases e : s.fsm <;> simp_all

/-- `run` leaves Ready, to Running with a cycle left or to HaltedNormal with none (40_execution_engine.md R139). -/
theorem State.Inv.commandRun {s : State} (hs : s.Inv) : (commandRun s).Inv := by
  by_cases hready : s.fsm = .ready
  · have hfault : s.fault = none := hs.fault_eq_none (by simp [hready])
    rw [commandRun_of_ready hready]
    by_cases hbudget : s.remaining = 0
    · simp only [if_pos hbudget]
      exact { hs with
        ready := nofun
        unloaded := nofun
        running := nofun
        haltedNormal := fun _ => hbudget
        fault := ⟨fun h => absurd hfault h, nofun⟩ }
    · simp only [if_neg hbudget]
      exact { hs with
        ready := nofun
        unloaded := nofun
        running := fun _ => Nat.pos_of_ne_zero hbudget
        haltedNormal := nofun
        fault := ⟨fun h => absurd hfault h, nofun⟩ }
  · rw [commandRun_of_not_ready hready]
    exact hs

/-! ## The invariant's part about each element, after a handler -/

section Elements

variable {i : Instr} {s u : State}

theorem Effect.rm_bound (h : Effect i s u) (hs : s.Inv) : ∀ v, u.rm = some v → v.toNat < 0x1000 := by
  rcases h.rm_cases with e | ⟨a, _, e⟩ <;> rw [e]
  · exact hs.rm
  · rintro _ ⟨⟩
    exact toNat_zext_addr_lt a

theorem Effect.rf_bound (h : Effect i s u) (hs : s.Inv) : ∀ v, u.rf = some v → v.toNat < 0x100 := by
  rcases h.rf_cases with e | ⟨_, w, hw, e⟩ <;> rw [e]
  · exact hs.rf
  · rintro _ ⟨⟩
    exact hw

theorem Effect.mem_wf (h : Effect i s u) (hs : s.Inv) : u.mem.wf = true := by
  rcases h.mem_cases with e | ⟨rx, imm8, _, e⟩ <;> rw [e]
  · exact hs.mem
  · exact Memory.wf_write _ _ _ hs.mem

/-- A push that finds a free slot does not wrap SP. -/
theorem toNat_sp_add_one {p : Byte} (h : p.toNat < stackSlots) : (p + 1).toNat = p.toNat + 1 := by
  simp only [stackSlots] at h
  bv_omega

theorem Effect.sp_le (h : Effect i s u) (hs : s.Inv) : u.sp.toNat ≤ stackSlots := by
  rcases h.stack_cases with ⟨_, e⟩ | ⟨_, hsp, _, _, e⟩ | ⟨_, hsp, _, e⟩ <;> rw [e]
  · exact hs.sp
  · rw [toNat_sp_add_one hsp]
    exact hsp
  · exact hsp.le

theorem Effect.pushed (h : Effect i s u) (hs : s.Inv) :
    ∀ k (hk : k < stackSlots), k < u.sp.toNat → u.stack[k] ≠ none := by
  intro k hk hlt
  rcases h.stack_cases with ⟨e, esp⟩ | ⟨_, hsp, _, e, esp⟩ | ⟨_, hsp, e, esp⟩ <;> rw [esp] at hlt <;> simp only [e]
  · exact hs.pushed k hk hlt
  · rw [toNat_sp_add_one hsp] at hlt
    rw [Vector.getElem_set]
    split
    · simp
    · exact hs.pushed k hk (by omega)
  · exact hs.pushed k hk (by rw [sp_eq_popped_add_one hsp]; omega)

theorem Effect.slots (h : Effect i s u) (hs : s.Inv) (hpc : s.pc.toNat < memWords) :
    ∀ k (hk : k < stackSlots) v, u.stack[k] = some v → v.toNat < 0x1000 := by
  intro k hk v
  rcases h.stack_cases with ⟨e, _⟩ | ⟨_, hsp, _, e, _⟩ | ⟨_, _, e, _⟩ <;> simp only [e]
  · exact hs.slots k hk v
  · rw [Vector.getElem_set]
    split
    · rintro ⟨⟩
      exact hpc
    · exact hs.slots k hk v
  · exact hs.slots k hk v

/-- The PC that a handler leaves is at most one word past the memory (10_state.md R27). -/
theorem Effect.pc_le (h : Effect i s u) (hs : s.Inv) (hpc : s.pc.toNat < memWords) : u.pc.toNat ≤ 0x1000 := by
  simp only [memWords] at hpc
  cases h with
  | gpr => rw [State.withReg_pc]; omega
  | gprRf => simp only [State.withReg_pc]; omega
  | skip p hp => rcases hp with rfl | rfl <;> bv_omega
  | jump a => exact (toNat_zext_addr_lt a).le
  | call a => exact (toNat_zext_addr_lt a).le
  | ret v _ hsp hv => exact (hs.slots _ hsp v hv).le
  | _ => exact hpc.le

end Elements

/-! ## The invariant along a cycle -/

/-- A fetch writes IR, about which the invariant speaks in Ready alone. -/
theorem State.Inv.withIr {s : State} (hs : s.Inv) (hrun : s.fsm = .running) (w : Word) : { s with ir := some w }.Inv :=
  { hs with ready := fun h => absurd (hrun.symm.trans h) nofun }

theorem State.Inv.takeFault {s : State} (hs : s.Inv) (c : FaultCause) (w : Option Word) : (takeFault c w s).Inv :=
  { hs with
    ready := nofun
    unloaded := nofun
    running := nofun
    haltedNormal := nofun
    fault := ⟨fun _ => rfl, nofun⟩
    faultPc := by rintro _ ⟨⟩; rfl }

/-- A handler that succeeds on a fetched word, with the cycle ended, keeps the invariant. -/
theorem State.Inv.completed {i : Instr} {s u : State} (hs : s.Inv) (hrun : s.fsm = .running)
    (hpc : s.pc.toNat < memWords) (hu : Handled i s u) : (u.completed (u.pc + 1)).Inv := by
  have heffect := hu.effect
  obtain ⟨hremaining, hfsm, hfault, _, hrd, hrs, _, _⟩ := hu.untouched
  have hnone : u.fault = none := hfault.trans (hs.fault_eq_none (by simp [hrun]))
  have hends : (u.completed (u.pc + 1)).fsm = if s.remaining - 1 = 0 then .haltedNormal else .running := by
    rw [State.completed_fsm, hremaining, hfsm, hrun]
  exact {
    mem := heffect.mem_wf hs
    budget := by have := hs.budget; rw [State.completed_remaining]; omega
    rd := hrd.trans hs.rd
    rs := hrs.trans hs.rs
    rm := heffect.rm_bound hs
    rf := heffect.rf_bound hs
    sp := heffect.sp_le hs
    pushed := heffect.pushed hs
    slots := heffect.slots hs hpc
    pc := by have := heffect.pc_le hs hpc; rw [State.completed_pc]; bv_omega
    ready := by rw [hends]; split <;> nofun
    unloaded := by rw [hends]; split <;> nofun
    running := by
      rw [hends, State.completed_remaining, hremaining]
      split
      · nofun
      · exact fun _ => by omega
    haltedNormal := by
      rw [hends, State.completed_remaining, hremaining]
      split
      · exact fun _ => by omega
      · nofun
    fault := by rw [hends, State.completed_fault, hnone]; split <;> simp
    faultPc := by rw [State.completed_fault, hnone]; nofun }

theorem State.Inv.exec {i : Instr} {s t : State} (hs : s.Inv) (hrun : s.fsm = .running) (hpc : s.pc.toNat < memWords)
    (h : exec i s = .next t) : t.Inv := by
  rcases exec_cases i s with ⟨c, _, e⟩ | ⟨u, hu, e⟩ <;> rw [e] at h <;> cases h
  · exact hs.takeFault c s.ir
  · exact hs.completed hrun hpc hu

theorem pc_lt_of_fetch {s : State} {w : Word} (h : fetch s = .ok w) : s.pc.toNat < memWords := by
  rcases fetch_cases s with ⟨_, e⟩ | ⟨hpc, _⟩ | ⟨_, hpc, _⟩
  · rw [e] at h; cases h
  · exact hpc
  · exact hpc

theorem State.Inv.cycle {s t : State} (hs : s.Inv) (hrun : s.fsm = .running) (h : cycle s = .next t) : t.Inv := by
  rcases cycle_cases s with ⟨c, _, e⟩ | ⟨w, i, hfetch, _, e⟩ | ⟨w, op, _, _, e⟩ <;> rw [e] at h
  · cases h; exact hs.takeFault c none
  · exact (hs.withIr hrun w).exec hrun (pc_lt_of_fetch hfetch) h
  · cases h; exact (hs.withIr hrun w).takeFault _ _

theorem State.Inv.ownStep {s t : State} (hs : s.Inv) (h : ownStep s = .next t) : t.Inv := by
  by_cases hrun : s.fsm = .running
  · exact hs.cycle hrun (ownStep_of_running hrun ▸ h)
  · rw [ownStep_of_not_running hrun] at h
    cases h
    exact hs

/-- Settles O41: the block's own step keeps the invariant, and so does each command of the host. -/
theorem stepKeepsInvariant : Obligations.StepKeepsInvariant := by
  intro s t hs hstep
  obtain ⟨r, rfl, ⟨e, _⟩ | ⟨e, _⟩ | ⟨ws, e, _⟩ | ⟨e, _⟩⟩ := step_cases s <;> rw [e] at hstep
  · exact (hs.withHostMoves _).ownStep hstep
  · cases hstep; exact .commandReset _
  · cases hstep; exact (hs.withHostMoves _).commandLoad ws
  · cases hstep; exact (hs.withHostMoves _).commandRun

end Sys2Proof.Machine
end

section
/-! PROOFS. Fetch: the word at PC goes to IR and decides the rest of the cycle, so that a store to the next address is seen
by the next cycle (20_memory.md R53, R62). -/

namespace Sys2Proof

/-! ## The word that WA stores, as an instruction -/

theorem decode_formatRI_ld (rx : Nibble) (imm8 : Byte) :
    decode (formatRI (opcodeMap.code .ld) rx imm8) = .ok (.ld rx imm8) := by
  have hhandler : opcodeMap.handler (fieldsOf (formatRI (opcodeMap.code .ld) rx imm8)).op = some .ld := by
    rw [op_formatRI, handler_code]
  rw [decode, decodeWith_of_handler hhandler, instrOf, rx_formatRI, imm8_formatRI]

/-- The index fills bits 3..0 of the stored word (47_store.md R230). Its opcode and `rx` are 0, as in an LD into R1. -/
theorem zext_index_eq_formatRI (rx : Nibble) : zext 16 rx = formatRI (opcodeMap.code .ld) 0 (zext 8 rx) := by
  apply BitVec.eq_of_toNat_eq
  have hop : (opcodeMap.code .ld).toNat = 0 := rfl
  have hrx : (0 : Nibble).toNat = 0 := rfl
  rw [toNat_formatRI, hop, hrx]
  simp only [BitVec.toNat_setWidth]
  omega

theorem decode_zext_index (rx : Nibble) : decode (zext 16 rx) = .ok (.ld 0 (zext 8 rx)) := by
  rw [zext_index_eq_formatRI, decode_formatRI_ld]

end Sys2Proof

namespace Sys2Proof.Machine

/-! ## The two faults of a fetch (20_memory.md R53) -/

theorem fetch_of_outside {s : State} (h : memWords ≤ s.pc.toNat) : fetch s = .error (.fetchAddressFault s.pc) := if_pos h

theorem fetch_of_unwritten {s : State} (h : s.pc.toNat < memWords) (hread : s.mem.read (zext 12 s.pc) = none) :
    fetch s = .error (.unwrittenRead (.mem s.pc)) := by
  rw [fetch, if_neg (Nat.not_le.mpr h), hread]

/-! ## A step in Running -/

/-- In Running, with no move of the host to come, the step is a cycle (40_execution_engine.md R120). -/
theorem step_of_running {s : State} (hmoves : s.hostMoves = []) (hrun : s.fsm = .running) : step s = cycle s := by
  rw [step_of_no_moves hmoves, ownStep_of_running hrun]

theorem step_of_fetches {s : State} {w : Word} {i : Instr} (h : s.Fetches w) (hd : decode w = .ok i) :
    step s = exec i { s with ir := some w } := by
  rw [step_of_running h.moves h.running, cycle_of_decode (fetch_of_fetches h) hd]

/-! ## IR after a fetch -/

/-- Whether the handler completes or faults, `exec` answers a state with IR as it was. -/
theorem exec_keeps_ir (i : Instr) (s : State) : ∃ t, exec i s = .next t ∧ t.ir = s.ir := by
  rcases exec_cases i s with ⟨c, _, hexec⟩ | ⟨u, hu, hexec⟩
  · exact ⟨_, hexec, rfl⟩
  · obtain ⟨_, _, _, hir, _⟩ := hu.untouched
    exact ⟨_, hexec, hir⟩

/-- The word of a fetch that succeeds is in IR at the end of the cycle, faults of dispatch and handler included
(40_execution_engine.md R123). -/
theorem cycle_ir_of_fetch {s : State} {w : Word} (h : fetch s = .ok w) : ∃ t, cycle s = .next t ∧ t.ir = some w := by
  rcases cycle_cases s with ⟨c, hf, _⟩ | ⟨v, i, hf, _, hcycle⟩ | ⟨v, op, hf, _, hcycle⟩ <;> rw [h] at hf <;> cases hf
  · rw [hcycle]
    exact exec_keeps_ir i _
  · exact ⟨_, hcycle, rfl⟩

/-- Settles O25: each clause is one answer of `fetch`, and the cycle that follows from it. -/
theorem fetchReadsOrFaults : Obligations.FetchReadsOrFaults := by
  intro s hmoves hrun
  rw [step_of_running hmoves hrun]
  refine ⟨fun hpc => ?_, fun hpc hread => ?_, fun hpc w hread => ?_⟩
  · exact cycle_of_fetch_error (fetch_of_outside hpc)
  · exact cycle_of_fetch_error (fetch_of_unwritten hpc hread)
  · exact cycle_ir_of_fetch (fetch_of_fetches ⟨hmoves, hrun, hpc, hread⟩)

/-! ## A store and the next fetch -/

theorem exec_wa (rx : Nibble) (imm8 : Byte) (s : State) :
    exec (.wa rx imm8) s =
      .next (({ s with mem := s.mem.write (storeAddr imm8) (zext 16 rx) } : State).completed (s.pc + 1)) := rfl

theorem exec_ld_of_gpr {rx : Nibble} (imm8 : Byte) (s : State) (h : rx.toNat < numGpr) :
    exec (.ld rx imm8) s = .next ((s.withReg rx imm8).completed (s.pc + 1)) := by
  rw [exec, execLd, writeGpr_of_gpr imm8 h, endCycle_ok, State.withReg_pc]

/-- An 8-bit store address is inside memory and far from where PC wraps, so as a 16-bit PC it is the same address. -/
theorem storeAddr_eq_next_fetch {imm8 : Byte} {p : Word} (h : imm8.toNat = p.toNat + 1) :
    (p + 1).toNat < memWords ∧ zext 12 (p + 1) = storeAddr imm8 := by
  have hpc : (p + 1).toNat = imm8.toNat := by bv_omega
  refine ⟨by simp only [memWords]; omega, BitVec.eq_of_toNat_eq ?_⟩
  simp only [storeAddr, BitVec.toNat_setWidth, hpc]

/-- A WA to the next address, with a cycle left, leaves the machine about to fetch the word it stored. -/
theorem fetches_stored_of_step_wa {s t : State} {w : Word} {rx : Nibble} {imm8 : Byte} (h : s.Fetches w)
    (hd : decode w = .ok (.wa rx imm8)) (haddr : imm8.toNat = s.pc.toNat + 1) (hstep : step s = .next t)
    (hrun : t.fsm = .running) : t.Fetches (zext 16 rx) ∧ t.pc = s.pc + 1 := by
  rw [step_of_fetches h hd, exec_wa] at hstep
  cases hstep
  obtain ⟨hpc, hnext⟩ := storeAddr_eq_next_fetch haddr
  refine ⟨⟨h.moves, hrun, hpc, ?_⟩, rfl⟩
  rw [State.completed_mem, State.completed_pc, hnext, Memory.read_write_self]

/-- Settles O47: the stored index, read back as an instruction, is an LD of itself into R1, and that LD cannot fault. -/
theorem storedWordIsFetchedNext : Obligations.StoredWordIsFetchedNext := by
  intro s t w rx imm8 hs hd haddr hstep hrun
  obtain ⟨ht, hpc⟩ := fetches_stored_of_step_wa hs hd haddr hstep hrun
  have hr1 : (0 : Nibble).toNat < numGpr := by decide
  refine ⟨_, (step_of_fetches ht (decode_zext_index rx)).trans (exec_ld_of_gpr _ _ hr1), ?_, ?_, ?_⟩
  · rw [State.completed_ir, State.withReg_ir]
  · exact State.reg_withReg_self _ _ _ hr1
  · rw [State.completed_pc, hpc, word_add_one_add_one]

end Sys2Proof.Machine
end

section
/-! PROOFS. The codec over an opcode map: decoding undoes encoding, encoding undoes decoding but for the unused bits, and so
the unused bits decide nothing (30_encoding.md R72, R76, R78, R79, R81). -/

namespace Sys2Proof

/-! ## Decoding an encoded instruction (30_encoding.md R81) -/

theorem op_encodeWith (m : OpcodeMap) (i : Instr) : (fieldsOf (encodeWith m i)).op = m.code i.mnemonic := by
  cases i with
  | ld rx imm8 => exact Laws.OpcodeField.ld rx imm8 m
  | mv rx ry => exact Laws.OpcodeField.mv rx ry m
  | add rx ry => exact Laws.OpcodeField.add rx ry m
  | sub rx ry => exact Laws.OpcodeField.sub rx ry m
  | mult rx ry => exact Laws.OpcodeField.mult rx ry m
  | div rx ry => exact Laws.OpcodeField.div rx ry m
  | mod rx ry => exact Laws.OpcodeField.mod rx ry m
  | skp rx ry => exact Laws.OpcodeField.skp rx ry m
  | sne rx ry => exact Laws.OpcodeField.sne rx ry m
  | j addr12 => exact Laws.OpcodeField.j addr12 m
  | call addr12 => exact Laws.OpcodeField.call addr12 m
  | ret => exact Laws.OpcodeField.ret m
  | la addr12 => exact Laws.OpcodeField.la addr12 m
  | sla rx ry => exact Laws.OpcodeField.sla rx ry m
  | sra rx ry => exact Laws.OpcodeField.sra rx ry m
  | wa rx imm8 => exact Laws.OpcodeField.wa rx imm8 m

/-- The operands stand where the handler of the mnemonic reads them: one argument per format (R73, R74). -/
theorem instrOf_fieldsOf_encodeWith (m : OpcodeMap) (i : Instr) : instrOf i.mnemonic (fieldsOf (encodeWith m i)) = i := by
  cases i
  case ld | wa => simp only [Instr.mnemonic, instrOf, encodeWith, rx_formatRI, imm8_formatRI]
  case j | call | la => simp only [Instr.mnemonic, instrOf, encodeWith, addr12_formatA]
  case ret => rfl
  case mv | add | sub | mult | div | mod | skp | sne | sla | sra =>
    simp only [Instr.mnemonic, instrOf, encodeWith, rx_formatRR, ry_formatRR]

/-- Settles O3: the nibble selects the instruction's own handler, and that handler reads the operands back. -/
theorem decodeEncodeRoundTrip : Obligations.DecodeEncodeRoundTrip := by
  intro m hcodes i
  have hhandler : m.handler (fieldsOf (encodeWith m i)).op = some i.mnemonic := by rw [op_encodeWith, hcodes]
  rw [decodeWith_of_handler hhandler, instrOf_fieldsOf_encodeWith]

theorem decode_encode (i : Instr) : decode (encode i) = .ok i := decodeEncodeRoundTrip opcodeMap handler_code i

/-! ## The opcode map as a bijection (30_encoding.md R76, R79) -/

/-- Every nibble has a mnemonic, and that mnemonic's code is the nibble. -/
theorem map_opcodeOf_mnemonicOf : ∀ op : Nibble, (mnemonicOf op).map opcodeOf = some op := by decide

theorem exists_handler (op : Nibble) : ∃ n, opcodeMap.handler op = some n ∧ opcodeMap.code n = op :=
  Option.map_eq_some_iff.mp (map_opcodeOf_mnemonicOf op)

theorem code_of_handler {op : Nibble} {n : Mnemonic} (h : opcodeMap.handler op = some n) : opcodeMap.code n = op := by
  obtain ⟨k, hk, hcode⟩ := exists_handler op
  obtain rfl : n = k := Option.some.inj (h.symm.trans hk)
  exact hcode

theorem opcodeMap_lawful : opcodeMap.Lawful := by
  refine ⟨handler_code, fun _ _ => code_of_handler, fun op => ?_, rfl, rfl⟩
  obtain ⟨n, hn, _⟩ := exists_handler op
  exact Option.isSome_of_mem hn

/-- Settles O2: the map is lawful, and its sixteen handlers are those of the table. -/
theorem opcodeMapOfSpec : Obligations.OpcodeMapOfSpec := ⟨opcodeMap_lawful, rfl⟩

/-- Settles O1: the nibble of each word selects its handler, and the instruction takes the fields that handler reads. -/
theorem specWordsDecode : Obligations.SpecWordsDecode :=
  ⟨decodeWith_of_handler (n := .ld) rfl, decodeWith_of_handler (n := .add) rfl, decodeWith_of_handler (n := .call) rfl,
    decodeWith_of_handler (n := .ret) rfl, decodeWith_of_handler (n := .sla) rfl, decodeWith_of_handler (n := .wa) rfl,
    decodeWith_of_handler (n := .skp) rfl, decodeWith_of_handler (n := .la) rfl⟩

/-! ## Encoding the fields of a word (30_encoding.md R73, R78) -/

open Machine (usedBits)

theorem formatRR_fieldsOf (w : Word) : formatRR (fieldsOf w).op (fieldsOf w).rx (fieldsOf w).ry = w &&& 0xFFF0 := by
  apply BitVec.eq_of_toNat_eq
  simp only [toNat_formatRR, toNat_and_FFF0, fieldsOf, toNat_field]
  omega

theorem formatRI_fieldsOf (w : Word) : formatRI (fieldsOf w).op (fieldsOf w).rx (fieldsOf w).imm8 = w &&& 0xFFFF := by
  apply BitVec.eq_of_toNat_eq
  simp only [toNat_formatRI, and_all, fieldsOf, toNat_field]
  omega

theorem formatA_fieldsOf (w : Word) : formatA (fieldsOf w).op (fieldsOf w).addr12 = w &&& 0xFFFF := by
  apply BitVec.eq_of_toNat_eq
  simp only [toNat_formatA, and_all, fieldsOf, toNat_field]
  omega

theorem formatN_fieldsOf (w : Word) : formatN (fieldsOf w).op = w &&& 0xF000 := by
  apply BitVec.eq_of_toNat_eq
  simp only [toNat_formatN, toNat_and_F000, fieldsOf, toNat_field]
  omega

/-- Over every map that gives `n` the nibble of `w`. -/
theorem encodeWith_instrOf_fieldsOf {m : OpcodeMap} {n : Mnemonic} {w : Word} (h : m.code n = (fieldsOf w).op) :
    encodeWith m (instrOf n (fieldsOf w)) = w &&& usedBits n := by
  cases n
  case ld | wa => simp only [instrOf, encodeWith, usedBits, h, formatRI_fieldsOf]
  case j | call | la => simp only [instrOf, encodeWith, usedBits, h, formatA_fieldsOf]
  case ret => simp only [instrOf, encodeWith, usedBits, h, formatN_fieldsOf]
  case mv | add | sub | mult | div | mod | skp | sne | sla | sra =>
    simp only [instrOf, encodeWith, usedBits, h, formatRR_fieldsOf]

/-- Settles O4: the word's nibble has a handler with that nibble as its code, so the encoder puts every used bit back. -/
theorem encodeDecodeClearsUnusedBits : Obligations.EncodeDecodeClearsUnusedBits := by
  intro w
  obtain ⟨n, hn, hcode⟩ := exists_handler (fieldsOf w).op
  refine ⟨_, decodeWith_of_handler hn, ?_⟩
  rw [instrOf_mnemonic, encode, encodeWith_instrOf_fieldsOf hcode]

/-! ## The unused bits decide nothing (30_encoding.md R78) -/

/-- The mnemonic of a decoded word is the one its nibble selects. -/
theorem handler_of_decode {w : Word} {i : Instr} (h : decode w = .ok i) :
    opcodeMap.handler (fieldsOf w).op = some i.mnemonic := by
  obtain ⟨n, hn, _⟩ := exists_handler (fieldsOf w).op
  rw [decode, decodeWith_of_handler hn] at h
  cases h
  rw [hn, instrOf_mnemonic]

theorem op_usedBits (n : Mnemonic) : (fieldsOf (usedBits n)).op = 0xF := by cases n <;> rfl

/-- Every format uses the opcode's bits. -/
theorem op_and_usedBits (w : Word) (n : Mnemonic) : (fieldsOf (w &&& usedBits n)).op = (fieldsOf w).op := by
  calc (fieldsOf (w &&& usedBits n)).op
      = (fieldsOf w).op &&& (fieldsOf (usedBits n)).op := BitVec.extractLsb'_and
    _ = (fieldsOf w).op &&& BitVec.allOnes 4 := by rw [op_usedBits]; rfl
    _ = (fieldsOf w).op := BitVec.and_allOnes

/-- Decoding does not see whether the unused bits were cleared: what is left is the encoding of the instruction. -/
theorem decode_and_usedBits {w : Word} {i : Instr} (h : decode w = .ok i) : decode (w &&& usedBits i.mnemonic) = .ok i := by
  obtain ⟨k, hk, hencode⟩ := encodeDecodeClearsUnusedBits w
  obtain rfl : i = k := Except.ok.inj (h.symm.trans hk)
  rw [← hencode, decode_encode]

/-- Words that agree on the used bits have one opcode, hence one format, and with the other bits cleared they are one word. -/
theorem decode_of_and_usedBits_eq {v w : Word} {i : Instr} (hv : decode v = .ok i)
    (hvw : v &&& usedBits i.mnemonic = w &&& usedBits i.mnemonic) : decode w = .ok i := by
  obtain ⟨k, hk, _⟩ := encodeDecodeClearsUnusedBits w
  have hop : (fieldsOf v).op = (fieldsOf w).op := by rw [← op_and_usedBits v i.mnemonic, hvw, op_and_usedBits]
  have hmnemonic : i.mnemonic = k.mnemonic :=
    Option.some.inj ((handler_of_decode hv).symm.trans (hop ▸ handler_of_decode hk))
  have hik : (.ok i : Except DecodeError Instr) = .ok k := by
    rw [← decode_and_usedBits hv, hvw, hmnemonic, decode_and_usedBits hk]
  rw [hk, hik]

end Sys2Proof

namespace Sys2Proof.Machine

/-- Settles O5: the words decode alike, and a step that fetches a word runs what the word decodes to. -/
theorem unusedBitsHaveNoEffect : Obligations.UnusedBitsHaveNoEffect := by
  intro v w i hv hvw
  have hw : decode w = .ok i := decode_of_and_usedBits_eq hv hvw
  refine ⟨hw, fun s t hs ht hst => ⟨step_of_fetches hs hv, ?_⟩⟩
  have hir : { t with ir := some w } = { s with ir := some w, mem := t.mem } := congrArg ({ · with ir := some w }) hst
  rw [step_of_fetches ht hw, hir]

end Sys2Proof.Machine
end

section
/-! PROOFS. Every layer of a step answers a next state (40_execution_engine.md R127, R129). -/

namespace Sys2Proof.Machine

theorem exec_total (i : Instr) (s : State) : ∃ t, exec i s = .next t :=
  (exec_keeps_ir i s).imp fun _ => And.left

theorem cycle_total (s : State) : ∃ t, cycle s = .next t := by
  rcases cycle_cases s with ⟨_, _, hcycle⟩ | ⟨_, i, _, _, hcycle⟩ | ⟨_, _, _, _, hcycle⟩
  · exact ⟨_, hcycle⟩
  · rw [hcycle]
    exact exec_total i _
  · exact ⟨_, hcycle⟩

theorem ownStep_total (s : State) : ∃ t, ownStep s = .next t := by
  by_cases hrun : s.fsm = .running
  · rw [ownStep_of_running hrun]
    exact cycle_total s
  · exact ⟨s, ownStep_of_not_running hrun⟩

/-- Settles O31: a step is the block's own or a command of the host, and each answers a next state. -/
theorem stepAlwaysAnswers : Obligations.StepAlwaysAnswers := by
  intro s
  obtain ⟨r, _, ⟨hstep, _⟩ | ⟨hstep, _⟩ | ⟨_, hstep, _⟩ | ⟨hstep, _⟩⟩ := step_cases s
  · rw [hstep]
    exact ownStep_total r
  · exact ⟨_, hstep⟩
  · exact ⟨_, hstep⟩
  · exact ⟨_, hstep⟩

end Sys2Proof.Machine
end

section
/-! PROOFS. The budget bounds the run: a cycle of Running completes and counts down, or faults, and an ended run stays as it
is (40_execution_engine.md R126, R129, R141). -/

namespace Sys2Proof.Machine

/-! ## The host's next move, taken by a step (40_execution_engine.md R134; log 6) -/

section Moves

variable {s : State} {rest : List HostMove}

theorem step_of_idle (h : s.hostMoves = .idle :: rest) : step s = ownStep { s with hostMoves := rest } := by
  rw [step, h]

theorem step_of_load {ws : List Word} (h : s.hostMoves = .load ws :: rest) :
    step s = .next (commandLoad ws { s with hostMoves := rest }) := by
  rw [step, h]

theorem step_of_run (h : s.hostMoves = .run :: rest) : step s = .next (commandRun { s with hostMoves := rest }) := by
  rw [step, h]

end Moves

/-! ## Steps in a row -/

theorem run_zero (s : State) : Host.Core.run core 0 s = .next s := rfl

theorem run_succ_of_step {s t : State} (k : Nat) (h : step s = .next t) :
    Host.Core.run core (k + 1) s = Host.Core.run core k t := by
  have hstep : core.step s = .next t := h
  simp only [Host.Core.run, hstep]

/-- A state that steps to itself is left by no number of steps. -/
theorem run_of_step_self {s : State} (k : Nat) (h : step s = .next s) : Host.Core.run core k s = .next s := by
  induction k with
  | zero => exact run_zero s
  | succ k ih => rw [run_succ_of_step k h, ih]

/-- Out of Running the block does not act on its own (40_execution_engine.md R129). -/
theorem step_self_of_not_running {s : State} (hmoves : s.hostMoves = []) (h : s.fsm ≠ .running) : step s = .next s := by
  rw [step_of_no_moves hmoves, ownStep_of_not_running h]

/-! ## One cycle of a run -/

/-- The cycle faulted and kept the budget, or it completed and used one cycle of it up. -/
def Counted (s t : State) : Prop :=
  (t.fsm = .haltedError ∧ t.remaining = s.remaining) ∨
  (t.fsm = (if s.remaining - 1 = 0 then .haltedNormal else s.fsm) ∧ t.remaining = s.remaining - 1)

theorem exec_counted (i : Instr) (s : State) : ∃ t, exec i s = .next t ∧ t.hostMoves = s.hostMoves ∧ Counted s t := by
  rcases exec_cases i s with ⟨c, _, hexec⟩ | ⟨u, hu, hexec⟩
  · exact ⟨_, hexec, rfl, .inl ⟨rfl, rfl⟩⟩
  · obtain ⟨hremaining, hfsm, _, _, _, _, _, hmoves⟩ := hu.untouched
    refine ⟨_, hexec, hmoves, .inr ⟨?_, ?_⟩⟩
    · rw [State.completed_fsm, hremaining, hfsm]
    · rw [State.completed_remaining, hremaining]

theorem cycle_counted (s : State) : ∃ t, cycle s = .next t ∧ t.hostMoves = s.hostMoves ∧ Counted s t := by
  rcases cycle_cases s with ⟨c, _, hcycle⟩ | ⟨w, i, _, _, hcycle⟩ | ⟨w, op, _, _, hcycle⟩
  · exact ⟨_, hcycle, rfl, .inl ⟨rfl, rfl⟩⟩
  · rw [hcycle]
    exact exec_counted i { s with ir := some w }
  · exact ⟨_, hcycle, rfl, .inl ⟨rfl, rfl⟩⟩

/-! ## The whole run -/

/-- Settles O44, by induction on the number of steps: after the first one the run has ended and stays as it is, or goes on
with one cycle less in its budget. -/
theorem runEndsWithinBudget : Obligations.RunEndsWithinBudget := by
  intro s k
  induction k generalizing s with
  | zero =>
    intro hrun _ hbudget _
    exact ⟨s, run_zero s, .inr ⟨rfl, by rw [if_neg hbudget.ne, hrun]⟩⟩
  | succ k ih =>
    intro hrun hmoves hbudget hk
    obtain ⟨t, hcycle, htmoves, hcount⟩ := cycle_counted s
    rw [hmoves] at htmoves
    rw [run_succ_of_step k ((step_of_running hmoves hrun).trans hcycle)]
    rcases hcount with ⟨herror, hsame⟩ | ⟨hfsm, hless⟩
    · refine ⟨t, run_of_step_self k (step_self_of_not_running htmoves (by simp [herror])), .inl ⟨herror, ?_⟩⟩
      omega
    · by_cases hlast : s.remaining - 1 = 0
      · obtain rfl : k = 0 := by omega
        refine ⟨t, run_zero t, .inr ⟨hless, ?_⟩⟩
        rw [hfsm, if_pos hlast, if_pos (by omega)]
      · have htrun : t.fsm = .running := by rw [hfsm, if_neg hlast, hrun]
        obtain ⟨u, hu, hend⟩ := ih t htrun htmoves (by omega) (by omega)
        refine ⟨u, hu, ?_⟩
        have hleft : t.remaining - k = s.remaining - (k + 1) := by omega
        have hused : k = t.remaining ↔ k + 1 = s.remaining := by omega
        simpa only [hleft, hused] using hend

end Sys2Proof.Machine
end

section
/-! PROOFS. The host interface: what each command does where it is accepted, that it does nothing where it is refused, and
what `observe` shows (40_execution_engine.md R120, R129, R134 to R140). -/

namespace Sys2Proof.Machine

/-! ## Load -/

theorem commandLoad_of_accepted {ws : List Word} {s : State} (hready : s.fsm = .ready) (hloaded : s.loaded = false)
    (hlength : ws.length ≤ memWords) :
    commandLoad ws s = { s with mem := s.mem.loadFrom 0 ws, remaining := ws.length, loaded := true } :=
  if_pos ⟨hready, hloaded, hlength⟩

theorem commandLoad_of_refused {ws : List Word} {s : State}
    (h : s.fsm ≠ .ready ∨ s.loaded = true ∨ memWords < ws.length) : commandLoad ws s = s := by
  refine if_neg fun ⟨hready, hloaded, hlength⟩ => ?_
  rcases h with h | h | h
  · exact h hready
  · simp [hloaded] at h
  · exact absurd hlength (Nat.not_le.mpr h)

/-- A load into unwritten memory leaves the words and nothing else. -/
theorem read_loadFrom_nil {ws : List Word} (a : Addr) (h : ws.length ≤ memWords) :
    (Memory.loadFrom [] 0 ws).read a = ws[a.toNat]? := by
  rw [Memory.read_loadFrom _ _ _ _ (by omega), if_pos (Nat.zero_le _), Memory.read_nil, Option.or_none, Nat.sub_zero]

/-- Settles O35: under the invariant memory is unwritten before the load, so that it holds the given words alone. -/
theorem loadFillsMemoryAndBudget : Obligations.LoadFillsMemoryAndBudget := by
  intro s ws rest hs hmoves hready hloaded hlength
  obtain ⟨hmem, _⟩ := hs.unloaded hloaded hready
  have hstep := (step_of_load hmoves).trans (congrArg _ (commandLoad_of_accepted hready hloaded hlength))
  refine ⟨_, hstep, fun a => ?_, rfl, rfl, rfl, rfl⟩
  simp only [hmem]
  exact read_loadFrom_nil a hlength

/-! ## Run, and the commands that are refused -/

/-- Settles O36: before a load the invariant gives an empty budget, so the second clause is a case of the first. -/
theorem runStartsOrEndsAtOnce : Obligations.RunStartsOrEndsAtOnce := by
  intro s rest hmoves hready
  have hstep := (step_of_run hmoves).trans (congrArg _ (commandRun_of_ready hready))
  refine ⟨hstep, fun hs hloaded => ?_⟩
  obtain ⟨_, hbudget⟩ := hs.unloaded hloaded hready
  rw [hstep, if_pos hbudget]

/-- Settles O37: the step is the command on the state with the move taken, and a refused command keeps that state. -/
theorem refusedCommandsDoNothing : Obligations.RefusedCommandsDoNothing := by
  intro s rest
  refine ⟨fun ws hmoves hrefused => ?_, fun hmoves hready => ?_⟩
  · exact (step_of_load hmoves).trans (congrArg _ (commandLoad_of_refused hrefused))
  · exact (step_of_run hmoves).trans (congrArg _ (commandRun_of_not_ready hready))

theorem State.halted.ne_ready {s : State} (h : s.halted) : s.fsm ≠ .ready := by
  rcases h with h | h <;> simp [h]

theorem State.halted.ne_running {s : State} (h : s.halted) : s.fsm ≠ .running := by
  rcases h with h | h <;> simp [h]

/-- Settles O38: in a halted state the block takes no step of its own and refuses `load` and `run`. In Ready with no command
the step is the block's own. -/
theorem haltedStatesAbsorb : Obligations.HaltedStatesAbsorb := by
  intro s
  obtain ⟨r, hr, hstep⟩ := step_cases s
  have hfsm : r.fsm = s.fsm := by rw [hr]
  rw [← hr]
  refine ⟨fun hhalted hreset => ?_, fun hready hmove => ?_⟩
  · rcases hstep with ⟨hstep, _⟩ | ⟨_, hhead⟩ | ⟨ws, hstep, _⟩ | ⟨hstep, _⟩
    · rw [hstep, ownStep_of_not_running (hfsm ▸ hhalted.ne_running)]
    · exact absurd hhead hreset
    · rw [hstep, commandLoad_of_refused (.inl (hfsm ▸ hhalted.ne_ready))]
    · rw [hstep, commandRun_of_not_ready (hfsm ▸ hhalted.ne_ready)]
  · rcases hstep with ⟨hstep, _⟩ | ⟨_, hhead⟩ | ⟨ws, _, hhead⟩ | ⟨_, hhead⟩
    · rw [hstep, ownStep_of_not_running (by simp [hfsm, hready])]
    all_goals simp [hhead] at hmove

/-! ## Observe -/

theorem observe_memory_at (s : State) (a : Addr) : (observe s).memory[a.toNat]? = some (s.mem.read a) := by
  simp [observe, List.getElem?_range a.isLt]

/-- Settles O39: the view copies each element, and lists the memory in the order of its addresses. -/
theorem observeShowsEveryElement : Obligations.ObserveShowsEveryElement := fun s =>
  ⟨rfl, rfl, rfl, rfl, rfl, rfl, rfl, rfl, rfl, rfl, rfl, by simp [observe], observe_memory_at s⟩

end Sys2Proof.Machine
end

section
/-! PROOFS. The register primitives, and the dispatch of a fetched word (40_execution_engine.md R122 to R124, R131, R132). -/

namespace Sys2Proof.Machine

/-- Settles O6: below 12 the register is the array's element, and its contents decide between the fault and the value. -/
theorem readGprChecksIndexThenValue : Obligations.ReadGprChecksIndexThenValue := by
  intro s i
  refine ⟨readGpr_of_not_gpr, fun h => ?_⟩
  have hreg : s.reg i = s.gpr[i.toNat] := dif_pos h
  exact ⟨fun hnone => readGpr_of_unwritten h (hreg.trans hnone), fun v hv => readGpr_of_reg (hreg.trans hv)⟩

/-- Settles O7: the staged state is `withReg`, whose lemmas give the register written and the others. -/
theorem writeGprStagesOneRegister : Obligations.WriteGprStagesOneRegister := by
  intro s i v
  refine ⟨writeGpr_of_not_gpr v, fun h => ⟨s.withReg i v, writeGpr_of_gpr v h, State.reg_withReg_self s i v h,
    fun k hk => State.reg_withReg_of_ne s i k v hk, ?_⟩⟩
  rw [State.withReg, dif_pos h]

/-- A fetch reads PC and memory, not the host's moves. -/
theorem fetch_withHostMoves (s : State) (moves : List HostMove) : fetch { s with hostMoves := moves } = fetch s := rfl

/-- Settles O24: an idle move leaves the step to the block, on the state with the move taken. -/
theorem stepRunsDecodedInstruction : Obligations.StepRunsDecodedInstruction := by
  intro s w i hs hd
  refine ⟨step_of_fetches hs hd, fun rest => ?_⟩
  have hfetch : fetch { s with hostMoves := rest } = .ok w := (fetch_withHostMoves s rest).trans (fetch_of_fetches hs)
  calc step { s with hostMoves := .idle :: rest }
      = ownStep { s with hostMoves := rest } := step_of_idle rfl
    _ = cycle { s with hostMoves := rest } := ownStep_of_running hs.running
    _ = exec i { s with ir := some w, hostMoves := rest } := cycle_of_decode hfetch hd

end Sys2Proof.Machine
end

section
/-! PROOFS. The host's loader reads the assembler's output back: its tokens are the words' texts, and the digits of a word's
text have the word as their value (40_execution_engine.md R135, R136; 30_encoding.md R88, R89). -/

namespace Sys2Proof.RomLoader

open Assembler (hexChar wordText outputText)

/-! ## The tokens of the output text -/

theorem isRomSeparator_hexChar : ∀ d : Nibble, isRomSeparator (hexChar d) = false := by decide

/-- The four digits of a word, bits 15..12 first (20_memory.md R52). -/
def wordDigits (w : Word) : List Nibble :=
  [w.extractLsb' 12 4, w.extractLsb' 8 4, w.extractLsb' 4 4, w.extractLsb' 0 4]

theorem wordText_eq (w : Word) : wordText w = (wordDigits w).map hexChar := rfl

/-- Digits go into the current token. -/
theorem romSplitFrom_digits (ds : List Nibble) (acc rest : List Char) :
    romSplitFrom acc (ds.map hexChar ++ rest) = romSplitFrom ((ds.map hexChar).reverse ++ acc) rest := by
  induction ds generalizing acc with
  | nil => rfl
  | cons d ds ih => simp [romSplitFrom, isRomSeparator_hexChar, ih]

theorem wordText_ne_nil (w : Word) : wordText w ≠ [] := nofun

theorem romSplitFrom_wordText (w : Word) (rest : List Char) :
    romSplitFrom [] (wordText w ++ rest) = romSplitFrom (wordText w).reverse rest := by
  rw [wordText_eq, romSplitFrom_digits, List.append_nil]

/-- The line of a word: its text ends at the newline, or at the end of the output. -/
theorem romSplitFrom_line (w : Word) (rest : List Char) :
    romSplitFrom [] (wordText w ++ '\n' :: rest) = wordText w :: romSplitFrom [] rest := by
  rw [romSplitFrom_wordText, romSplitFrom, if_pos (by decide), if_neg (by simp [wordText_ne_nil]), List.reverse_reverse]

theorem romSplitFrom_lastLine (w : Word) : romSplitFrom [] (wordText w) = [wordText w] := by
  rw [← List.append_nil (wordText w), romSplitFrom_wordText, romSplitFrom, if_neg (by simp [wordText_ne_nil]),
    List.reverse_reverse, List.append_nil]

theorem romSplitFrom_outputText (ws : List Word) : romSplitFrom [] (outputText ws) = ws.map wordText := by
  induction ws with
  | nil => rfl
  | cons w ws ih =>
    cases ws with
    | nil => exact romSplitFrom_lastLine w
    | cons v ws => rw [outputText, romSplitFrom_line, ih, List.map_cons (l := v :: ws)]

/-! ## The value of a token -/

/-- The value of the four digits is the word's (30_encoding.md R71). -/
theorem hexValueFrom_wordDigits (w : Word) : hexValueFrom 0 (wordDigits w) = w.toNat := by
  simp only [wordDigits, hexValueFrom, toNat_field]
  omega

theorem romWord_wordText (w : Word) : romWord (wordText w) = .ok w := by
  have hfits : w.toNat ≤ 0xFFFF := Nat.le_of_lt_succ w.isLt
  rw [romWord, wordText_eq, Assembler.hexDigits_map_hexChar]
  simp only [hexValueFrom_wordDigits, if_pos hfits, BitVec.ofNat_toNat, BitVec.setWidth_eq]
  rfl

theorem romWordsOf_map_wordText (ws : List Word) : romWordsOf (ws.map wordText) = .ok ws := by
  induction ws with
  | nil => rfl
  | cons w ws ih =>
    rw [List.map_cons, romWordsOf, romWord_wordText, ih]
    rfl

/-! ## The whole text -/

/-- Settles O49: the text has one token for each word, and each token reads as its word. -/
theorem assemblerOutputLoads : Obligations.AssemblerOutputLoads := by
  intro ws
  unfold romWords
  rw [romSplitFrom_outputText, List.length_map]
  refine ⟨fun hfits => ?_, fun htoo => if_pos htoo⟩
  rw [if_neg (Nat.not_lt.mpr hfits), romWordsOf_map_wordText]

end Sys2Proof.RomLoader
end

section
/-! PROOFS. Arithmetic (42_arithmetic.md): the handlers of ADD, SUB, MULT, DIV and MOD as one read of an operand pair and a
continuation, and the results of the ALU as natural numbers. -/

namespace Sys2Proof.Machine

/-! ## The words of format RR, whatever their unused bits (30_encoding.md R73, R78) -/

theorem toNat_wordRR (op rx ry u : Nibble) :
    (wordRR op rx ry u).toNat = op.toNat * 4096 + rx.toNat * 256 + ry.toNat * 16 + u.toNat := by
  simp only [wordRR, toNat_append_eq]
  omega

/-- The bits that format RR uses are those of the encoder's word. -/
theorem wordRR_and_FFF0 (op rx ry u : Nibble) : wordRR op rx ry u &&& 0xFFF0 = formatRR op rx ry := by
  apply BitVec.eq_of_toNat_eq
  rw [toNat_and_FFF0, toNat_wordRR, toNat_formatRR]
  omega

/-- A word that differs from an instruction's encoding in the unused bits alone decodes to that instruction. -/
theorem decode_wordRR {i : Instr} {op rx ry : Nibble} (u : Nibble) (hbits : usedBits i.mnemonic = 0xFFF0)
    (hword : encode i = formatRR op rx ry) : decode (wordRR op rx ry u) = .ok i := by
  have hformat : formatRR op rx ry &&& 0xFFF0 = formatRR op rx ry := wordRR_and_FFF0 op rx ry 0
  refine decode_of_and_usedBits_eq (decode_encode i) ?_
  rw [hbits, hword, wordRR_and_FFF0, hformat]

/-! ## The results of the ALU as natural numbers (42_arithmetic.md R162 to R166) -/

theorem aluAdd_eq (a b : Byte) : aluAdd a b = BitVec.ofNat 8 ((a.toNat + b.toNat) % 256) := by
  apply BitVec.eq_of_toNat_eq
  simp [aluAdd]

/-- The 256 that SUB adds first is lost again in the truncation unless it made up for a borrow. -/
theorem aluSub_eq (a b : Byte) :
    aluSub a b = BitVec.ofNat 8 (if b.toNat ≤ a.toNat then a.toNat - b.toNat else a.toNat + 256 - b.toNat) := by
  apply BitVec.eq_of_toNat_eq
  rw [aluSub, BitVec.toNat_ofNat, BitVec.toNat_ofNat]
  split <;> omega

theorem aluMult_eq (a b : Byte) : aluMult a b = BitVec.ofNat 8 (a.toNat * b.toNat % 256) := by
  apply BitVec.eq_of_toNat_eq
  simp [aluMult]

/-- A quotient is at most the dividend, so nothing is lost in the truncation. -/
theorem toNat_aluDiv (a b : Byte) : (aluDiv a b).toNat = a.toNat / b.toNat :=
  Nat.mod_eq_of_lt ((Nat.div_le_self a.toNat b.toNat).trans_lt a.isLt)

/-- A remainder is at most the dividend, so nothing is lost in the truncation. -/
theorem toNat_aluMod (a b : Byte) : (aluMod a b).toNat = a.toNat % b.toNat :=
  Nat.mod_eq_of_lt ((Nat.mod_le a.toNat b.toNat).trans_lt a.isLt)

theorem toNat_rfOfRemainder (r : Byte) : (rfOfRemainder r).toNat = r.toNat := by
  simp only [rfOfRemainder, BitVec.toNat_setWidth]
  omega

/-! ## The zero-divisor check (60_exceptions.md R244) -/

theorem checkDivisor_zero (m : Mnemonic) : checkDivisor m 0 = .error (.arithmeticFault m) := if_pos rfl

theorem checkDivisor_of_ne_zero (m : Mnemonic) {b : Byte} (h : b ≠ 0) : checkDivisor m b = .ok () := if_neg h

/-! ## An instruction that reads an operand pair and goes on with `k` (42_arithmetic.md R162) -/

theorem ReadRaises.readGpr_eq {s : State} {i : Nibble} {c : FaultCause} (h : ReadRaises s i c) : readGpr s i = .error c := by
  rcases h with ⟨hi, rfl⟩ | ⟨hi, hreg, rfl⟩
  · exact readGpr_of_not_gpr hi
  · exact readGpr_of_unwritten hi hreg

theorem PairRaises.readPair_eq {s : State} {rx ry : Nibble} {c : FaultCause} (h : PairRaises s rx ry c) :
    readPair s rx ry = .error c := by
  rcases h with hx | ⟨hx, hy⟩
  · rw [readPair, hx.readGpr_eq]; rfl
  · obtain ⟨a, ha⟩ := Option.ne_none_iff_exists'.mp hx
    rw [readPair, readGpr_of_reg ha, hy.readGpr_eq]; rfl

/-- The four faults do not depend on what the instruction does with its operands. -/
theorem pairReadFaults_endCycle (s : State) (rx ry : Nibble) (k : Byte × Byte → Except FaultCause State) :
    PairReadFaults rx ry s (endCycle s (readPair s rx ry >>= k)) := by
  have fault {c : FaultCause} (h : PairRaises s rx ry c) : endCycle s (readPair s rx ry >>= k) = .next (s.faulted c) := by
    rw [h.readPair_eq]; rfl
  exact ⟨fun hx => fault (.inl (.inl ⟨hx, rfl⟩)), fun hx hreg => fault (.inl (.inr ⟨hx, hreg, rfl⟩)),
    fun hx hy => fault (.inr ⟨hx, .inl ⟨hy, rfl⟩⟩), fun hx hy hreg => fault (.inr ⟨hx, .inr ⟨hy, hreg, rfl⟩⟩)⟩

section WrittenPair

variable {s : State} {rx ry : Nibble} {a b : Byte}

theorem endCycle_pair_of_reg (ha : s.reg rx = some a) (hb : s.reg ry = some b)
    (k : Byte × Byte → Except FaultCause State) : endCycle s (readPair s rx ry >>= k) = endCycle s (k (a, b)) := by
  rw [readPair_of_reg ha hb]; rfl

/-- x[rx] was read, so its index names a register and the write cannot fault. -/
theorem endCycle_writeGpr_of_reg (ha : s.reg rx = some a) (v : Byte) :
    endCycle s (writeGpr s rx v) = .next ((s.withReg rx v).completed (s.pc + 1)) := by
  rw [writeGpr_of_gpr v (State.lt_of_reg_eq_some ha), endCycle_ok, State.withReg_pc]

theorem endCycle_pairWrite_of_reg (ha : s.reg rx = some a) (hb : s.reg ry = some b) (f : Byte → Byte → Byte) :
    endCycle s (readPair s rx ry >>= fun p => writeGpr s rx (f p.1 p.2)) =
      .next ((s.withReg rx (f a b)).completed (s.pc + 1)) := by
  rw [endCycle_pair_of_reg ha hb, endCycle_writeGpr_of_reg ha]

theorem endCycle_divide_of_zero (ha : s.reg rx = some a) (hb : s.reg ry = some 0) (m : Mnemonic)
    (k : Byte → Byte → Except FaultCause State) :
    endCycle s (readPair s rx ry >>= fun p => checkDivisor m p.2 >>= fun _ => k p.1 p.2) =
      .next (s.faulted (.arithmeticFault m)) := by
  rw [endCycle_pair_of_reg ha hb, checkDivisor_zero]; rfl

theorem endCycle_divide_of_ne_zero (ha : s.reg rx = some a) (hb : s.reg ry = some b) (h0 : b ≠ 0) (m : Mnemonic)
    (k : Byte → Byte → Except FaultCause State) :
    endCycle s (readPair s rx ry >>= fun p => checkDivisor m p.2 >>= fun _ => k p.1 p.2) = endCycle s (k a b) := by
  rw [endCycle_pair_of_reg ha hb, checkDivisor_of_ne_zero m h0]; rfl

end WrittenPair

/-! ## The five handlers in that shape -/

theorem exec_add (rx ry : Nibble) (s : State) :
    exec (.add rx ry) s = endCycle s (readPair s rx ry >>= fun p => writeGpr s rx (aluAdd p.1 p.2)) := rfl

theorem exec_sub (rx ry : Nibble) (s : State) :
    exec (.sub rx ry) s = endCycle s (readPair s rx ry >>= fun p => writeGpr s rx (aluSub p.1 p.2)) := rfl

theorem exec_mult (rx ry : Nibble) (s : State) :
    exec (.mult rx ry) s = endCycle s (readPair s rx ry >>= fun p => writeGpr s rx (aluMult p.1 p.2)) := rfl

theorem exec_div (rx ry : Nibble) (s : State) :
    exec (.div rx ry) s =
      endCycle s (readPair s rx ry >>= fun p => checkDivisor .div p.2 >>= fun _ => writeGpr s rx (aluDiv p.1 p.2)) := rfl

theorem exec_mod (rx ry : Nibble) (s : State) :
    exec (.mod rx ry) s =
      endCycle s (readPair s rx ry >>= fun p => checkDivisor .mod p.2 >>= fun _ =>
        .ok { s with rf := some (rfOfRemainder (aluMod p.1 p.2)) }) := rfl

/-! ## The five instructions -/

/-- Settles O10: the pair is read, and `aluAdd` is the sum modulo 256. -/
theorem addWritesSum : Obligations.AddWritesSum := by
  intro rx ry u s
  rw [exec_add]
  refine ⟨decode_wordRR u rfl rfl, pairReadFaults_endCycle s rx ry _, fun a b ha hb => ?_⟩
  rw [endCycle_pairWrite_of_reg ha hb, aluAdd_eq]

/-- Settles O11: as for ADD, with `aluSub` the difference made up by 256 on a borrow. -/
theorem subWritesDifference : Obligations.SubWritesDifference := by
  intro rx ry u s
  rw [exec_sub]
  refine ⟨decode_wordRR u rfl rfl, pairReadFaults_endCycle s rx ry _, fun a b ha hb => ?_⟩
  rw [endCycle_pairWrite_of_reg ha hb, aluSub_eq]

/-- Settles O12: as for ADD, with `aluMult` the low byte of the product. -/
theorem multWritesLowProduct : Obligations.MultWritesLowProduct := by
  intro rx ry u s
  rw [exec_mult]
  refine ⟨decode_wordRR u rfl rfl, pairReadFaults_endCycle s rx ry _, fun a b ha hb => ?_⟩
  rw [endCycle_pairWrite_of_reg ha hb, aluMult_eq]

/-- Settles O13: the divisor is checked after both reads, and the quotient fits in a byte. -/
theorem divWritesQuotient : Obligations.DivWritesQuotient := by
  intro rx ry u s
  rw [exec_div]
  refine ⟨decode_wordRR u rfl rfl, pairReadFaults_endCycle s rx ry _,
    fun a ha hb => endCycle_divide_of_zero ha hb .div fun a b => writeGpr s rx (aluDiv a b),
    fun a b ha hb h0 => ⟨aluDiv a b, toNat_aluDiv a b, ?_⟩⟩
  rw [endCycle_divide_of_ne_zero ha hb h0 .div fun a b => writeGpr s rx (aluDiv a b), endCycle_writeGpr_of_reg ha]

/-- Settles O14: as for DIV, but the remainder goes to RF and the staged state has the general registers of `s`. -/
theorem modWritesRemainderToRf : Obligations.ModWritesRemainderToRf := by
  intro rx ry u s
  rw [exec_mod]
  refine ⟨decode_wordRR u rfl rfl, pairReadFaults_endCycle s rx ry _,
    fun a ha hb => endCycle_divide_of_zero ha hb .mod fun a b => .ok { s with rf := some (rfOfRemainder (aluMod a b)) },
    fun a b ha hb h0 => ⟨rfOfRemainder (aluMod a b), by rw [toNat_rfOfRemainder, toNat_aluMod], ?_⟩⟩
  rw [endCycle_divide_of_ne_zero ha hb h0 .mod fun a b => .ok { s with rf := some (rfOfRemainder (aluMod a b)) },
    endCycle_ok]

end Sys2Proof.Machine
end

section
/-! PROOFS. The skips, and control flow without data: the control part of the next state is a function of the control part
alone until a fault, so two runs that agree on it go on agreeing (43_skip.md R180 to R183). -/

namespace Sys2Proof.Machine

/-! ## SKP and SNE (43_skip.md R181, R182) -/

/-- PC at the end of a skip's cycle: the extra word, and the increment of every cycle (40_execution_engine.md R125). -/
theorem skipPc_add_one (b : Bool) (p : Word) : skipPc b p + 1 = if b then p + 2 else p + 1 := by
  rw [skipPc_eq]
  cases b
  · rfl
  · exact word_add_one_add_one p

theorem exec_skp (rx ry : Nibble) (s : State) :
    exec (.skp rx ry) s = .next (s.completed (skipPc (decide (rx = ry)) s.pc + 1)) := rfl

theorem exec_sne (rx ry : Nibble) (s : State) :
    exec (.sne rx ry) s = .next (s.completed (skipPc (decide (rx ≠ ry)) s.pc + 1)) := rfl

/-- Settles O15: neither handler can fault, and what it adds to PC is decided by the indices. -/
theorem skipsCompareIndices : Obligations.SkipsCompareIndices := by
  intro rx ry u s
  refine ⟨decode_wordRR u rfl rfl, decode_wordRR u rfl rfl, ?_, ?_⟩
  · simp only [exec_skp, skipPc_add_one, decide_eq_true_eq]
  · simp only [exec_sne, skipPc_add_one, decide_eq_true_eq, ne_eq, ite_not]

/-! ## The parts of a cycle on two states with the same control part -/

section Cycle

variable {s t u v : State}

theorem SameControl.withReg (h : SameControl s t) (i : Nibble) (a b : Byte) :
    SameControl (s.withReg i a) (t.withReg i b) := by
  constructor <;> simp [h.pc, h.sp, h.stack, h.ir, h.mem, h.fsm, h.remaining, h.loaded, h.hostMoves]

theorem SameControl.withRf (h : SameControl s t) (a b : Option Word) :
    SameControl { s with rf := a } { t with rf := b } := { h with }

theorem SameControl.withIr (h : SameControl s t) (w : Word) :
    SameControl { s with ir := some w } { t with ir := some w } := { h with ir := rfl }

theorem SameControl.withHostMoves (h : SameControl s t) (moves : List HostMove) :
    SameControl { s with hostMoves := moves } { t with hostMoves := moves } := { h with hostMoves := rfl }

/-- The end of a cycle reads PC, the budget and the engine's state. -/
theorem SameControl.completed (h : SameControl s t) :
    SameControl (s.completed (s.pc + 1)) (t.completed (t.pc + 1)) :=
  { h with
    pc := by rw [State.completed_pc, State.completed_pc, h.pc]
    fsm := by rw [State.completed_fsm, State.completed_fsm, h.remaining, h.fsm]
    remaining := by rw [State.completed_remaining, State.completed_remaining, h.remaining] }

/-- A fetch reads PC and memory. -/
theorem SameControl.fetch_eq (h : SameControl s t) : fetch s = fetch t := by rw [fetch, fetch, h.pc, h.mem]

/-- Handlers that succeed keep the control parts the same: those that use a register's contents write only general registers
and RF, and those that write PC, SP, the call stack or memory use only the instruction's fields, PC, SP and the stack. -/
theorem Handled.sameControl {i : Instr} (hu : Handled i s u) (hv : Handled i t v) (h : SameControl s t) :
    SameControl u v := by
  cases i <;> simp only [Handled] at hu hv
  case ld => obtain ⟨⟨_, rfl⟩, ⟨_, rfl⟩⟩ := hu, hv; exact h.withReg ..
  case mv => obtain ⟨⟨_, _, _, rfl⟩, ⟨_, _, _, rfl⟩⟩ := hu, hv; exact h.withReg ..
  case add | sub | mult => obtain ⟨⟨_, _, _, _, rfl⟩, ⟨_, _, _, _, rfl⟩⟩ := hu, hv; exact h.withReg ..
  case div => obtain ⟨⟨_, _, _, _, _, rfl⟩, ⟨_, _, _, _, _, rfl⟩⟩ := hu, hv; exact h.withReg ..
  case mod => obtain ⟨⟨_, _, _, _, _, rfl⟩, ⟨_, _, _, _, _, rfl⟩⟩ := hu, hv; exact h.withRf ..
  case sla | sra => obtain ⟨⟨_, _, _, _, rfl⟩, ⟨_, _, _, _, rfl⟩⟩ := hu, hv; exact (h.withReg ..).withRf ..
  case la => subst hu hv; exact { h with }
  case skp | sne => subst hu hv; exact { h with pc := by simp only [h.pc] }
  case j => subst hu hv; exact { h with pc := rfl }
  case call =>
    obtain ⟨⟨_, rfl⟩, ⟨_, rfl⟩⟩ := hu, hv
    exact { h with pc := rfl, sp := by simp only [h.sp], stack := by simp only [h.stack, h.sp, h.pc] }
  case ret =>
    obtain ⟨⟨_, a, ha, rfl⟩, ⟨_, b, hb, rfl⟩⟩ := hu, hv
    have hslot : some a = some b := by rw [← ha, ← hb]; simp only [h.stack, h.sp]
    exact { h with pc := Option.some.inj hslot, sp := by simp only [h.sp] }
  case wa => subst hu hv; exact { h with mem := by simp only [h.mem] }

theorem SameControl.exec {i : Instr} (h : SameControl s t) (hu : exec i s = .next u) (hv : exec i t = .next v)
    (hue : u.fsm ≠ .haltedError) (hve : v.fsm ≠ .haltedError) : SameControl u v := by
  rcases exec_cases i s with ⟨c, _, e⟩ | ⟨a, ha, e⟩ <;> rw [e] at hu <;> cases hu
  · exact absurd (State.faulted_fsm s c) hue
  rcases exec_cases i t with ⟨c, _, e⟩ | ⟨b, hb, e⟩ <;> rw [e] at hv <;> cases hv
  · exact absurd (State.faulted_fsm t c) hve
  exact (ha.sameControl hb h).completed

/-- The two cycles fetch one word, which decodes to one instruction. -/
theorem SameControl.cycle (h : SameControl s t) (hu : cycle s = .next u) (hv : cycle t = .next v)
    (hue : u.fsm ≠ .haltedError) (hve : v.fsm ≠ .haltedError) : SameControl u v := by
  rcases cycle_cases s with ⟨c, _, e⟩ | ⟨w, i, hfetch, hdecode, e⟩ | ⟨w, op, _, _, e⟩ <;> rw [e] at hu
  · cases hu; exact absurd rfl hue
  · rw [cycle_of_decode (h.fetch_eq ▸ hfetch) hdecode] at hv
    exact (h.withIr w).exec hu hv hue hve
  · cases hu; exact absurd rfl hue

theorem SameControl.ownStep (h : SameControl s t) (hu : ownStep s = .next u) (hv : ownStep t = .next v)
    (hue : u.fsm ≠ .haltedError) (hve : v.fsm ≠ .haltedError) : SameControl u v := by
  by_cases hrun : s.fsm = .running
  · exact h.cycle (ownStep_of_running hrun ▸ hu) (ownStep_of_running (h.fsm ▸ hrun) ▸ hv) hue hve
  · rw [ownStep_of_not_running hrun] at hu
    rw [ownStep_of_not_running (h.fsm ▸ hrun)] at hv
    cases hu; cases hv
    exact h

/-! ## The host's commands on two states with the same control part -/

theorem step_of_reset {rest : List HostMove} (h : s.hostMoves = .reset :: rest) :
    step s = .next (commandReset { s with hostMoves := rest }) := by
  rw [step, h]

/-- After a reset nothing is left of the two states but the host's moves. -/
theorem sameControl_commandReset (h : s.hostMoves = t.hostMoves) : SameControl (commandReset s) (commandReset t) := by
  rw [commandReset, commandReset, h]
  constructor <;> rfl

theorem SameControl.commandLoad (h : SameControl s t) (ws : List Word) :
    SameControl (commandLoad ws s) (commandLoad ws t) := by
  unfold Machine.commandLoad
  rw [h.fsm, h.loaded]
  split
  · exact { h with mem := by simp only [h.mem], fsm := rfl, remaining := rfl, loaded := rfl }
  · exact h

theorem SameControl.commandRun (h : SameControl s t) : SameControl (commandRun s) (commandRun t) := by
  by_cases hready : s.fsm = .ready
  · rw [commandRun_of_ready hready, commandRun_of_ready (h.fsm ▸ hready)]
    exact { h with fsm := by simp only [h.remaining] }
  · rw [commandRun_of_not_ready hready, commandRun_of_not_ready (h.fsm ▸ hready)]
    exact h

/-! ## What every move but a reset keeps -/

/-- The host's later moves stay, and HaltedError is not left (40_execution_engine.md R120, R129). -/
def KeepsMovesAndError (s u : State) : Prop :=
  u.hostMoves = s.hostMoves ∧ (s.fsm = .haltedError → u.fsm = .haltedError)

theorem ownStep_keepsMovesAndError (h : ownStep s = .next u) : KeepsMovesAndError s u := by
  by_cases hrun : s.fsm = .running
  · obtain ⟨r, hcycle, hmoves, _⟩ := cycle_counted s
    rw [ownStep_of_running hrun, hcycle] at h
    cases h
    exact ⟨hmoves, fun herror => by simp [hrun] at herror⟩
  · rw [ownStep_of_not_running hrun] at h
    cases h
    exact ⟨rfl, id⟩

theorem commandLoad_keepsMovesAndError (ws : List Word) (s : State) : KeepsMovesAndError s (commandLoad ws s) := by
  unfold commandLoad
  split <;> exact ⟨rfl, id⟩

theorem commandRun_keepsMovesAndError (s : State) : KeepsMovesAndError s (commandRun s) := by
  by_cases hready : s.fsm = .ready
  · rw [commandRun_of_ready hready]
    exact ⟨rfl, fun herror => by simp [hready] at herror⟩
  · rw [commandRun_of_not_ready hready]
    exact ⟨rfl, id⟩

end Cycle

/-! ## Two runs in step -/

/-- The invariant of two runs: the host's coming moves are the same, and so is the control part unless one of the two has
faulted. It holds past a fault too: until a `reset` one of the two stays in HaltedError, and a `reset` makes them agree
again. -/
structure AgreeUnlessFault (s t : State) : Prop where
  hostMoves : s.hostMoves = t.hostMoves
  control : s.fsm ≠ .haltedError → t.fsm ≠ .haltedError → SameControl s t

section Runs

variable {s t u v : State}

theorem SameControl.agreeUnlessFault (h : SameControl s t) : AgreeUnlessFault s t := ⟨h.hostMoves, fun _ _ => h⟩

theorem AgreeUnlessFault.withHostMoves (h : AgreeUnlessFault s t) (moves : List HostMove) :
    AgreeUnlessFault { s with hostMoves := moves } { t with hostMoves := moves } :=
  ⟨rfl, fun hs ht => (h.control hs ht).withHostMoves moves⟩

/-- A move that keeps a faulted state faulted has to be looked at on states with the same control part only. -/
theorem AgreeUnlessFault.of_kept (h : AgreeUnlessFault s t) (hu : KeepsMovesAndError s u) (hv : KeepsMovesAndError t v)
    (hsame : SameControl s t → u.fsm ≠ .haltedError → v.fsm ≠ .haltedError → SameControl u v) :
    AgreeUnlessFault u v := by
  obtain ⟨⟨humoves, huerror⟩, ⟨hvmoves, hverror⟩⟩ := hu, hv
  exact ⟨by rw [humoves, hvmoves, h.hostMoves],
    fun hue hve => hsame (h.control (mt huerror hue) (mt hverror hve)) hue hve⟩

theorem AgreeUnlessFault.ownStep (h : AgreeUnlessFault s t) (hu : ownStep s = .next u) (hv : ownStep t = .next v) :
    AgreeUnlessFault u v :=
  h.of_kept (ownStep_keepsMovesAndError hu) (ownStep_keepsMovesAndError hv) fun hsame => hsame.ownStep hu hv

/-- The host makes the same move in both runs. -/
theorem AgreeUnlessFault.step (h : AgreeUnlessFault s t) (hu : step s = .next u) (hv : step t = .next v) :
    AgreeUnlessFault u v := by
  have hmoves : t.hostMoves = s.hostMoves := h.hostMoves.symm
  cases e : s.hostMoves with
  | nil =>
    rw [step_of_no_moves e] at hu
    rw [step_of_no_moves (hmoves.trans e)] at hv
    exact h.ownStep hu hv
  | cons m rest =>
    have hrest := h.withHostMoves rest
    rw [e] at hmoves
    cases m with
    | idle =>
      rw [step_of_idle e] at hu
      rw [step_of_idle hmoves] at hv
      exact hrest.ownStep hu hv
    | reset =>
      rw [step_of_reset e] at hu
      rw [step_of_reset hmoves] at hv
      cases hu; cases hv
      exact (sameControl_commandReset rfl).agreeUnlessFault
    | load ws =>
      rw [step_of_load e] at hu
      rw [step_of_load hmoves] at hv
      cases hu; cases hv
      exact hrest.of_kept (commandLoad_keepsMovesAndError ws _) (commandLoad_keepsMovesAndError ws _)
        fun hsame _ _ => hsame.commandLoad ws
    | run =>
      rw [step_of_run e] at hu
      rw [step_of_run hmoves] at hv
      cases hu; cases hv
      exact hrest.of_kept (commandRun_keepsMovesAndError _) (commandRun_keepsMovesAndError _)
        fun hsame _ _ => hsame.commandRun

theorem AgreeUnlessFault.run (k : Nat) (h : AgreeUnlessFault s t) (hu : Host.Core.run core k s = .next u)
    (hv : Host.Core.run core k t = .next v) : AgreeUnlessFault u v := by
  induction k generalizing s t with
  | zero => cases hu; cases hv; exact h
  | succ k ih =>
    obtain ⟨s', hs'⟩ := stepAlwaysAnswers s
    obtain ⟨t', ht'⟩ := stepAlwaysAnswers t
    rw [run_succ_of_step k hs'] at hu
    rw [run_succ_of_step k ht'] at hv
    exact ih (h.step hs' ht') hu hv

end Runs

/-- Settles O45: the invariant of two runs holds at the start and every step keeps it; at the end neither run has faulted. -/
theorem controlFlowIgnoresRegisters : Obligations.ControlFlowIgnoresRegisters :=
  fun k _ _ _ _ h hs ht hse hte => (h.agreeUnlessFault.run k hs ht).control hse hte

end Sys2Proof.Machine
end

section
/-! PROOFS. CALL and RET (44_control_transfer.md): a push and a pop of the call stack. A slot below SP keeps its value, so the
address of a CALL stays in its slot until SP comes back down to it (R192 to R198). -/

namespace Sys2Proof.Machine

/-! ## CALL with a free slot and with none (44_control_transfer.md R192, R194) -/

theorem exec_call_of_free (a : Addr) {s : State} (h : s.sp.toNat < stackSlots) :
    exec (.call a) s =
      .next (({ s with stack := s.stack.set s.sp.toNat (some s.pc) h, sp := s.sp + 1 } : State).completed
        (target a + 1)) := by
  rcases exec_cases (.call a) s with ⟨_, ⟨hfull, _⟩, _⟩ | ⟨_, ⟨_, rfl⟩, hexec⟩
  · omega
  · exact hexec

theorem exec_call_of_full (a : Addr) {s : State} (h : stackSlots ≤ s.sp.toNat) :
    exec (.call a) s = .next (s.faulted (.stackIndexFault .call s.sp)) := by
  rcases exec_cases (.call a) s with ⟨_, ⟨_, rfl⟩, hexec⟩ | ⟨_, ⟨hfree, _⟩, _⟩
  · exact hexec
  · omega

/-- The increment at the end of the cycle does not wrap a 12-bit target. -/
theorem toNat_target_add_one (a : Addr) : (target a + 1).toNat = a.toNat + 1 := by
  have htarget : (target a).toNat = a.toNat := BitVec.toNat_setWidth_of_le (by decide)
  bv_omega

/-- Settles O17: the word is the encoder's own, and SP decides between the push and the fault. -/
theorem callPushesOwnAddress : Obligations.CallPushesOwnAddress := fun a _ =>
  ⟨decode_encode (.call a), fun hfree => ⟨_, toNat_target_add_one a, exec_call_of_free a hfree⟩, exec_call_of_full a⟩

/-! ## RET at a written slot and with none pushed (44_control_transfer.md R195, R198) -/

theorem exec_ret_of_slot {s : State} {v : Word} (h : (s.sp - 1).toNat < stackSlots)
    (hv : s.stack[(s.sp - 1).toNat] = some v) :
    exec .ret s = .next (({ s with sp := s.sp - 1 } : State).completed (v + 1)) := by
  rcases exec_cases .ret s with ⟨_, ⟨hout, _⟩ | ⟨_, hnone, _⟩, _⟩ | ⟨_, ⟨_, w, hw, rfl⟩, hexec⟩
  · omega
  · rw [hv] at hnone; cases hnone
  · rw [hv] at hw; cases hw; exact hexec

theorem exec_ret_of_empty {s : State} (h : s.sp = 0) :
    exec .ret s = .next (s.faulted (.stackIndexFault .ret 255)) := by
  have hindex : s.sp - 1 = 255 := by rw [h]; rfl
  rcases exec_cases .ret s with ⟨_, ⟨_, rfl⟩ | ⟨hslot, _⟩, hexec⟩ | ⟨_, ⟨hslot, _⟩, _⟩
  · rw [hexec, hindex]
  · exact absurd hslot (by rw [hindex]; decide)
  · exact absurd hslot (by rw [hindex]; decide)

/-- Under the invariant the slot that RET pops is one that a CALL wrote (60_exceptions.md R246). -/
theorem exec_ret_of_inv {s : State} (hs : s.Inv) (h : s.sp ≠ 0) :
    ∃ v, exec .ret s = .next (({ s with sp := s.sp - 1 } : State).completed (v + 1)) := by
  have hsp : (s.sp - 1).toNat + 1 = s.sp.toNat := by bv_omega
  have hslot : (s.sp - 1).toNat < stackSlots := by have := hs.sp; omega
  obtain ⟨v, hv⟩ := Option.ne_none_iff_exists'.mp (hs.pushed _ hslot (by omega))
  exact ⟨v, exec_ret_of_slot hslot hv⟩

/-! ## The faults of CALL and RET under the invariant (44_control_transfer.md R194, R198) -/

theorem State.faulted_inj {s : State} {c d : FaultCause} : s.faulted c = s.faulted d ↔ c = d := by
  refine ⟨fun h => ?_, congrArg _⟩
  have hrecord := congrArg State.fault h
  rw [State.faulted_fault, State.faulted_fault] at hrecord
  cases hrecord
  rfl

/-- A fault keeps SP, so a state with another SP is none: that tells a completed CALL or RET from a fault in every state,
one already in HaltedError included. -/
theorem State.ne_faulted_of_sp_ne {s u : State} (h : u.sp ≠ s.sp) (c : FaultCause) : u ≠ s.faulted c :=
  fun e => h (e ▸ State.faulted_sp s c)

theorem exec_ret_faults_iff {s : State} (hs : s.Inv) (c : FaultCause) :
    exec .ret s = .next (s.faulted c) ↔ s.sp = 0 ∧ c = .stackIndexFault .ret 255 := by
  by_cases hempty : s.sp = 0
  · rw [exec_ret_of_empty hempty, Host.Outcome.next.injEq, State.faulted_inj, eq_comm]
    exact (and_iff_right hempty).symm
  · obtain ⟨v, hexec⟩ := exec_ret_of_inv hs hempty
    have hmoved : s.sp - 1 ≠ s.sp := by bv_omega
    rw [hexec, Host.Outcome.next.injEq]
    exact iff_of_false (State.ne_faulted_of_sp_ne hmoved c) fun ⟨h, _⟩ => hempty h

theorem exec_call_faults_iff {s : State} (hs : s.Inv) (a : Addr) (c : FaultCause) :
    exec (.call a) s = .next (s.faulted c) ↔ s.sp = 16 ∧ c = .stackIndexFault .call 16 := by
  by_cases hfull : s.sp = 16
  · rw [exec_call_of_full a (by rw [hfull]; decide), Host.Outcome.next.injEq, State.faulted_inj, eq_comm, hfull]
    exact (and_iff_right rfl).symm
  · have hfree : s.sp.toNat < stackSlots :=
      lt_of_le_of_ne hs.sp fun h => hfull (BitVec.eq_of_toNat_eq h)
    have hmoved : s.sp + 1 ≠ s.sp := by bv_omega
    rw [exec_call_of_free a hfree, Host.Outcome.next.injEq]
    exact iff_of_false (State.ne_faulted_of_sp_ne hmoved c) fun ⟨h, _⟩ => hfull h

/-- Settles O42: SP is from 0 to 16 with every slot below it written, so only its two ends fault. -/
theorem stackFaultsAreUnderflowAndOverflow : Obligations.StackFaultsAreUnderflowAndOverflow :=
  fun _ hs => ⟨exec_ret_faults_iff hs, exec_call_faults_iff hs⟩

/-! ## A slot below SP along a run -/

section Slot

variable {n : Nat} {p : Word} {s t : State}

/-- CALL alone writes the stack, and at SP (44_control_transfer.md R192). -/
theorem exec_keeps_slot {i : Instr} (hn : n < stackSlots) (hsp : n < s.sp.toNat) (h : exec i s = .next t) :
    t.stack[n] = s.stack[n] := by
  obtain ⟨_, _, _, hwriter, _⟩ := writersOfEachElement i s t h
  by_contra hne
  obtain ⟨_, hindex⟩ := hwriter n hn hne
  omega

theorem cycle_keeps_slot (hn : n < stackSlots) (hsp : n < s.sp.toNat) (h : cycle s = .next t) :
    t.stack[n] = s.stack[n] := by
  rcases cycle_cases s with ⟨_, _, e⟩ | ⟨w, i, _, _, e⟩ | ⟨_, _, _, _, e⟩ <;> rw [e] at h
  · cases h; rfl
  · exact exec_keeps_slot (s := { s with ir := some w }) hn hsp h
  · cases h; rfl

/-- No move of the host is to come, and slot `n` of the call stack holds `p`. -/
structure Outstanding (n : Nat) (p : Word) (s : State) : Prop where
  moves : s.hostMoves = []
  slot : ∃ h : n < stackSlots, s.stack[n] = some p

theorem Outstanding.step (hs : Outstanding n p s) (hsp : n < s.sp.toNat) (h : step s = .next t) : Outstanding n p t := by
  rw [step_of_no_moves hs.moves] at h
  obtain ⟨hn, hslot⟩ := hs.slot
  obtain ⟨hmoves, _⟩ := ownStep_keepsMovesAndError h
  refine ⟨hmoves.trans hs.moves, hn, ?_⟩
  by_cases hrun : s.fsm = .running
  · rw [cycle_keeps_slot hn hsp (ownStep_of_running hrun ▸ h), hslot]
  · rw [ownStep_of_not_running hrun] at h
    cases h
    exact hslot

/-- The slot keeps its value as long as SP stays above it. -/
theorem Outstanding.run (k : Nat) (hs : Outstanding n p s)
    (hsp : ∀ j ≤ k, ∀ u, Host.Core.run core j s = .next u → n < u.sp.toNat)
    (h : Host.Core.run core k s = .next t) : Outstanding n p t := by
  induction k generalizing s with
  | zero => cases h; exact hs
  | succ k ih =>
    obtain ⟨s', hstep⟩ := stepAlwaysAnswers s
    rw [run_succ_of_step k hstep] at h
    refine ih (hs.step (hsp 0 (Nat.zero_le _) s (run_zero s)) hstep) (fun j hj u hu => ?_) h
    exact hsp (j + 1) (Nat.succ_le_succ hj) u ((run_succ_of_step j hstep).trans hu)

end Slot

/-! ## A CALL and its matching RET (44_control_transfer.md R196) -/

/-- A CALL that did not fault left its address in the slot that SP named. -/
theorem outstanding_of_step_call {s t : State} {w : Word} {a : Addr} (hs : s.Fetches w) (hd : decode w = .ok (.call a))
    (hstep : step s = .next t) (hrun : t.fsm = .running) : Outstanding s.sp.toNat s.pc t ∧ t.sp = s.sp + 1 := by
  rw [step_of_fetches hs hd] at hstep
  by_cases hfree : s.sp.toNat < stackSlots
  · rw [exec_call_of_free a (s := { s with ir := some w }) hfree] at hstep
    cases hstep
    exact ⟨⟨hs.moves, hfree, Vector.getElem_set_self hfree⟩, rfl⟩
  · rw [exec_call_of_full a (s := { s with ir := some w }) (Nat.not_lt.mp hfree)] at hstep
    cases hstep
    cases hrun

/-- A RET with SP one above an outstanding slot resumes after the address in it. -/
theorem Outstanding.step_ret {n : Byte} {p v : Word} {s t : State} (hs : Outstanding n.toNat p s) (hsp : s.sp = n + 1)
    (hfetch : s.Fetches v) (hd : decode v = .ok .ret) (hstep : Machine.step s = .next t) : t.pc = p + 1 ∧ t.sp = n := by
  obtain rfl : s.sp - 1 = n := by rw [hsp, BitVec.add_sub_cancel]
  obtain ⟨hn, hslot⟩ := hs.slot
  rw [step_of_fetches hfetch hd, exec_ret_of_slot (s := { s with ir := some v }) hn hslot] at hstep
  cases hstep
  exact ⟨rfl, rfl⟩

/-- Settles O46: the CALL leaves its address in its slot, the steps between keep it there, and the RET pops it. -/
theorem matchingRetResumesAfterCall : Obligations.MatchingRetResumesAfterCall := by
  intro s s₁ s₂ s₃ w v a k hcall hcallword hstep hbetween hrun hsp hret hretword hstep'
  obtain ⟨hrunning, _⟩ := hbetween 0 (Nat.zero_le k) s₁ (run_zero s₁)
  obtain ⟨hpushed, hsp₁⟩ := outstanding_of_step_call hcall hcallword hstep hrunning
  have hkept : Outstanding s.sp.toNat s.pc s₂ := hpushed.run k (fun j hj u hu => (hbetween j hj u hu).2) hrun
  exact hkept.step_ret (hsp.trans hsp₁) hret hretword hstep'

end Sys2Proof.Machine
end

section
/-! PROOFS. Shifts (46_shift.md): the two fills are the logical and the arithmetic right shift of a bit vector, and the
handlers of SLA and SRA are one read of an operand pair and the two writes of a shift. -/

namespace Sys2Proof.Machine

/-! ## The results of the shifter (46_shift.md R215, R220, R221, R225) -/

theorem toNat_shiftLeft (a n : Byte) : (shiftLeft a n).toNat = a.toNat * 2 ^ n.toNat % 256 := BitVec.toNat_ofNat ..

/-- A quotient is at most the dividend, so nothing is lost in the truncation. -/
theorem toNat_shiftRight_zero (a n : Byte) : (shiftRight .zero a n).toNat = a.toNat / 2 ^ n.toNat :=
  Nat.mod_eq_of_lt ((Nat.div_le_self a.toNat _).trans_lt a.isLt)

theorem shiftRight_zero_eq (a n : Byte) : shiftRight .zero a n = a >>> n.toNat := by
  apply BitVec.eq_of_toNat_eq
  rw [toNat_shiftRight_zero, BitVec.toNat_ushiftRight, Nat.shiftRight_eq_div_pow]

/-- The `s = a − 256·a[7]` of R221 is the value of `a` as two's complement. -/
theorem toInt_eq_sub_bit7 (a : Byte) : a.toInt = (a.toNat : Int) - 256 * ((a.extractLsb' 7 1).toNat : Int) := by
  rw [toNat_field, BitVec.toInt_eq_toNat_cond]
  split <;> omega

theorem shiftRight_sign_eq (a n : Byte) : shiftRight .sign a n = a.sshiftRight n.toNat := by
  rw [BitVec.sshiftRight_eq, Int.shiftRight_eq_div_pow, toInt_eq_sub_bit7, Nat.cast_pow]
  rfl

theorem msb_shiftRight_sign (a n : Byte) : (shiftRight .sign a n).msb = a.msb := by
  rw [shiftRight_sign_eq, BitVec.msb_sshiftRight]

/-- A bit of the sign-filled result: the operand's while there are any, then copies of bit 7. -/
theorem getLsbD_shiftRight_sign (a n : Byte) {k : Nat} (hk : k < 8) :
    (shiftRight .sign a n).getLsbD k = if n.toNat + k < 8 then a.getLsbD (n.toNat + k) else a.msb := by
  rw [shiftRight_sign_eq, BitVec.getLsbD_sshiftRight, decide_eq_false (Nat.not_le.mpr hk), Bool.not_false, Bool.true_and]

theorem shiftRight_sign_bits (a n : Byte) (k : Nat) (h : k + n.toNat < 8) :
    (shiftRight .sign a n).getLsbD k = a.getLsbD (k + n.toNat) := by
  rw [getLsbD_shiftRight_sign a n (Nat.lt_of_add_right_lt h), Nat.add_comm n.toNat k, if_pos h]

/-- From 7 on the one bit of the operand that can be left is bit 7 itself. -/
theorem shiftRight_sign_saturates (a n : Byte) (h : 7 ≤ n.toNat) :
    shiftRight .sign a n = if a.msb then 0xFF else 0x00 := by
  have hbit (k : Nat) (hk : k < 8) : (shiftRight .sign a n).getLsbD k = a.msb := by
    rw [getLsbD_shiftRight_sign a n hk, BitVec.msb_eq_getLsbD_last]
    split
    · rw [show n.toNat + k = 8 - 1 by omega]
    · rfl
  have hcopies (b : Bool) (k : Nat) (hk : k < 8) : (if b then 0xFF else 0x00 : Byte).getLsbD k = b := by
    cases b
    · exact BitVec.getLsbD_zero
    · exact (BitVec.getLsbD_allOnes (v := 8)).trans (decide_eq_true hk)
  exact BitVec.eq_of_getLsbD_eq fun k hk => (hbit k hk).trans (hcopies a.msb k hk).symm

/-- With bit 7 set and a bit vacated, bit 7 of the result tells the fills apart. -/
theorem shiftRight_sign_eq_zero_iff (a n : Byte) :
    shiftRight .sign a n = shiftRight .zero a n ↔ ¬(a.msb = true ∧ 1 ≤ n.toNat) := by
  rw [shiftRight_sign_eq, shiftRight_zero_eq]
  constructor
  · rintro heq ⟨hmsb, hn⟩
    have hvacated : 0 < n.toNat := hn
    have hbit7 := congrArg BitVec.msb heq
    rw [BitVec.msb_sshiftRight, BitVec.msb_ushiftRight, hmsb, decide_eq_true hvacated] at hbit7
    cases hbit7
  · intro hsame
    cases hmsb : a.msb with
    | false => exact BitVec.sshiftRight_eq_of_msb_false hmsb
    | true =>
      have hn : n.toNat = 0 := Nat.eq_zero_of_not_pos fun hpos => hsame ⟨hmsb, hpos⟩
      rw [hn, BitVec.sshiftRight_zero, BitVec.ushiftRight_zero]

/-- Settles O22: the sign fill is the arithmetic right shift, the zero fill the logical one. -/
theorem sraFillsCompared : Obligations.SraFillsCompared := fun a n =>
  ⟨msb_shiftRight_sign a n, shiftRight_sign_saturates a n, shiftRight_sign_bits a n, shiftRight_sign_eq_zero_iff a n⟩

/-! ## The writes of a shift (46_shift.md R215) -/

/-- Bit 7 of a byte as a number: set from 128 on. -/
theorem rfOfShift_eq (r : Byte) : rfOfShift r = if 128 ≤ r.toNat then 1 else 0 := by
  apply BitVec.eq_of_toNat_eq
  rw [rfOfShift, BitVec.toNat_setWidth, toNat_field]
  split
  · change _ = 1; omega
  · change _ = 0; omega

/-- x[rx] was read, so its index names a register and the write cannot fault. -/
theorem endCycle_pairShift_of_reg {s : State} {rx ry : Nibble} {a n : Byte} (ha : s.reg rx = some a)
    (hn : s.reg ry = some n) (f : Byte → Byte → Byte) :
    endCycle s (readPair s rx ry >>= fun p => writeShift s rx (f p.1 p.2)) =
      .next (({ s.withReg rx (f a n) with rf := some (if 128 ≤ (f a n).toNat then 1 else 0) } : State).completed
        (s.pc + 1)) := by
  have hx : rx.toNat < numGpr := State.lt_of_reg_eq_some ha
  rw [endCycle_pair_of_reg ha hn]
  rcases writeShift_cases s rx (f a n) with ⟨hbad, _⟩ | ⟨_, hwrite⟩
  · omega
  · rw [hwrite, endCycle_ok, State.withReg_pc, rfOfShift_eq]

/-! ## The two handlers in that shape -/

theorem exec_sla (rx ry : Nibble) (s : State) :
    exec (.sla rx ry) s = endCycle s (readPair s rx ry >>= fun p => writeShift s rx (shiftLeft p.1 p.2)) := rfl

/-- The spec's fill is the zero fill (46_shift.md R221, decision D6). -/
theorem exec_sra (rx ry : Nibble) (s : State) :
    exec (.sra rx ry) s = endCycle s (readPair s rx ry >>= fun p => writeShift s rx (shiftRight .zero p.1 p.2)) := rfl

/-- Settles O20: the pair is read, and `shiftLeft` is the low byte of the product. -/
theorem slaShiftsByRegisterValue : Obligations.SlaShiftsByRegisterValue := by
  intro rx ry u s
  rw [exec_sla]
  exact ⟨decode_wordRR u rfl rfl, pairReadFaults_endCycle s rx ry _,
    fun a n ha hn => ⟨shiftLeft a n, toNat_shiftLeft a n, endCycle_pairShift_of_reg ha hn shiftLeft⟩⟩

/-- Settles O21: as for SLA, with the zero fill the floor of the quotient. -/
theorem sraShiftsByRegisterValue : Obligations.SraShiftsByRegisterValue := by
  intro rx ry u s
  rw [exec_sra]
  exact ⟨decode_wordRR u rfl rfl, pairReadFaults_endCycle s rx ry _,
    fun a n ha hn => ⟨shiftRight .zero a n, toNat_shiftRight_zero a n,
      endCycle_pairShift_of_reg ha hn (shiftRight .zero)⟩⟩

end Sys2Proof.Machine
end

section
/-! PROOFS. The store (47_store.md): WA writes its raw index to one of the words 0x000 to 0x0FF, and nothing else but the end
of the cycle happens. -/

namespace Sys2Proof.Machine

/-- WA reaches the words 0x000 to 0x0FF alone: the extension to an address adds nothing (47_store.md R230). -/
theorem toNat_storeAddr (imm8 : Byte) : (storeAddr imm8).toNat = imm8.toNat := BitVec.toNat_setWidth_of_le (by decide)

/-- The end of a cycle leaves memory alone, so a staged store is what memory holds after it. -/
theorem read_completed_store_self (s : State) (a : Addr) (v p : Word) :
    (({ s with mem := s.mem.write a v } : State).completed p).mem.read a = some v := by
  rw [State.completed_mem, Memory.read_write_self]

theorem read_completed_store_of_ne (s : State) {a b : Addr} (v p : Word) (h : b ≠ a) :
    (({ s with mem := s.mem.write a v } : State).completed p).mem.read b = s.mem.read b := by
  rw [State.completed_mem, Memory.read_write_of_ne _ _ h]

/-- The end of a cycle does not depend on what memory holds. -/
theorem completed_store_restored (s : State) (m : Memory) (p : Word) :
    { ({ s with mem := m } : State).completed p with mem := s.mem } = s.completed p := rfl

/-- Settles O23: the word is the encoder's own, the handler cannot fault, and all it stages is one store. -/
theorem waStoresIndex : Obligations.WaStoresIndex := fun rx imm8 s =>
  ⟨decode_encode (.wa rx imm8), toNat_storeAddr imm8, _, exec_wa rx imm8 s, read_completed_store_self s _ _ _,
    fun _ hother => read_completed_store_of_ne s _ _ hother, completed_store_restored s _ _⟩

end Sys2Proof.Machine
end

section
/-! PROOFS. The faults (60_exceptions.md): their codes, the dispatch of a nibble with no handler, and that a fault commits
nothing of its cycle. -/

namespace Sys2Proof.Machine

/-- Settles O32: each cause has its own kind, and each kind its code. -/
theorem faultCodes : Obligations.FaultCodes := by
  intro c _ _
  cases c <;> rfl

/-! ## A nibble with no handler (60_exceptions.md R243) -/

/-- Every word decodes under the spec's map (30_encoding.md R79). -/
theorem decode_ne_error (w : Word) (e : DecodeError) : decode w ≠ .error e := by
  obtain ⟨i, hi, _⟩ := encodeDecodeClearsUnusedBits w
  rw [hi]
  nofun

/-- The fetch has succeeded by then, so the word is in IR and in the record. -/
theorem cycleWith_of_no_handler {m : OpcodeMap} {s : State} {w : Word} (hfetch : fetch s = .ok w)
    (hgap : m.handler (fieldsOf w).op = none) :
    cycleWith m s = .next (({ s with ir := some w } : State).faulted (.invalidOpcode (fieldsOf w).op)) := by
  simp only [cycleWith, hfetch, decodeWith_of_no_handler hgap]
  rfl

/-- Settles O26: the spec's map has no gap, and over a map with one the cycle ends at dispatch. -/
theorem invalidOpcodeOnlyWithoutHandler : Obligations.InvalidOpcodeOnlyWithoutHandler :=
  ⟨fun w _ => decode_ne_error w _, fun _ _ _ hfetch hgap => cycleWith_of_no_handler hfetch hgap⟩

/-! ## The faults of a fetch, told apart from those of a handler by their cause -/

/-- The cause of a fetch fault with PC at `p` (20_memory.md R53): the code of FetchAddressFault, or the unwritten word. -/
def FaultCause.OfFetch (p : Word) (c : FaultCause) : Prop := c.kind.code = 5 ∨ c = .unwrittenRead (.mem p)

theorem ofFetch_of_fetch_error {s : State} {c : FaultCause} (h : fetch s = .error c) : c.OfFetch s.pc := by
  rcases fetch_cases s with ⟨_, e⟩ | ⟨_, _, e⟩ | ⟨_, _, _, e⟩ <;> rw [e] at h <;> cases h
  · exact .inl rfl
  · exact .inr rfl

section Handlers

variable {p : Word} {s : State} {c : FaultCause}

theorem not_ofFetch_registerIndexFault (k : Nibble) : ¬ (FaultCause.registerIndexFault k).OfFetch p := nofun

theorem not_ofFetch_arithmeticFault (m : Mnemonic) : ¬ (FaultCause.arithmeticFault m).OfFetch p := nofun

theorem not_ofFetch_stackIndexFault (m : Mnemonic) (k : Byte) : ¬ (FaultCause.stackIndexFault m k).OfFetch p := nofun

/-- Handlers read registers and the call stack, never memory (47_store.md R232). -/
theorem not_ofFetch_unwrittenRead {e : Element} (h : e ≠ .mem p) : ¬ (FaultCause.unwrittenRead e).OfFetch p := by
  rintro (hcode | hcause)
  · cases hcode
  · exact h (FaultCause.unwrittenRead.inj hcause)

theorem ReadRaises.not_ofFetch {i : Nibble} (h : ReadRaises s i c) : ¬ c.OfFetch p := by
  rcases h with ⟨_, rfl⟩ | ⟨_, _, rfl⟩
  · exact not_ofFetch_registerIndexFault i
  · exact not_ofFetch_unwrittenRead nofun

theorem PairRaises.not_ofFetch {rx ry : Nibble} (h : PairRaises s rx ry c) : ¬ c.OfFetch p := by
  rcases h with h | ⟨_, h⟩
  · exact h.not_ofFetch
  · exact h.not_ofFetch

/-- No handler raises a fetch fault (60_exceptions.md R240). -/
theorem Raises.not_ofFetch {i : Instr} (h : Raises i s c) : ¬ c.OfFetch p := by
  cases i <;> simp only [Raises] at h
  case ld => obtain ⟨_, rfl⟩ := h; exact not_ofFetch_registerIndexFault _
  case mv =>
    rcases h with h | ⟨_, _, rfl⟩
    · exact h.not_ofFetch
    · exact not_ofFetch_registerIndexFault _
  case add | sub | mult | sla | sra => exact h.not_ofFetch
  case div | mod =>
    rcases h with h | ⟨_, _, rfl⟩
    · exact h.not_ofFetch
    · exact not_ofFetch_arithmeticFault _
  case call => obtain ⟨_, rfl⟩ := h; exact not_ofFetch_stackIndexFault _ _
  case ret =>
    rcases h with ⟨_, rfl⟩ | ⟨_, _, rfl⟩
    · exact not_ofFetch_stackIndexFault _ _
    · exact not_ofFetch_unwrittenRead nofun

end Handlers

/-! ## A step that ends in HaltedError (60_exceptions.md R241) -/

theorem fetches_of_fetch_ok {s : State} {w : Word} (hmoves : s.hostMoves = []) (hrun : s.fsm = .running)
    (h : fetch s = .ok w) : s.Fetches w := by
  rcases fetch_cases s with ⟨_, e⟩ | ⟨_, _, e⟩ | ⟨v, hpc, hread, e⟩ <;> rw [e] at h <;> cases h
  exact ⟨hmoves, hrun, hpc, hread⟩

/-- A completed cycle ends in HaltedNormal or where it began, so HaltedError is the mark of a fault. -/
theorem raises_of_exec_haltedError {i : Instr} {s t : State} (hs : s.fsm ≠ .haltedError) (hexec : exec i s = .next t)
    (ht : t.fsm = .haltedError) : ∃ c, Raises i s c ∧ t = s.faulted c := by
  rcases exec_cases i s with ⟨c, hraises, e⟩ | ⟨u, hu, e⟩ <;> rw [e] at hexec <;> cases hexec
  · exact ⟨c, hraises, rfl⟩
  · obtain ⟨_, hfsm, _⟩ := hu.untouched
    rw [State.completed_fsm, hfsm] at ht
    split at ht
    · cases ht
    · exact absurd ht hs

/-- Settles O27: the fault is the fetch's, with IR as it was, or the handler's, on the state with the word in IR. The cause
tells which. -/
theorem faultsArePrecise : Obligations.FaultsArePrecise := by
  intro s t hmoves hrun hstep herror
  rw [step_of_running hmoves hrun] at hstep
  rcases cycle_cases s with ⟨c, hfetch, hcycle⟩ | ⟨w, i, hfetch, _, hcycle⟩ | ⟨w, op, _, hdecode, _⟩
  · rw [hcycle] at hstep
    cases hstep
    exact ⟨_, rfl, rfl, .inl ⟨rfl, rfl, ofFetch_of_fetch_error hfetch⟩⟩
  · rw [hcycle] at hstep
    have hbegan : ({ s with ir := some w } : State).fsm ≠ .haltedError := by simp [hrun]
    obtain ⟨c, hraises, rfl⟩ := raises_of_exec_haltedError hbegan hstep herror
    exact ⟨_, rfl, rfl, .inr ⟨w, fetches_of_fetch_ok hmoves hrun hfetch, rfl, rfl, not_or.mp hraises.not_ofFetch⟩⟩
  · exact absurd hdecode (decode_ne_error w _)

end Sys2Proof.Machine
end

section
/-! PROOFS. LD, MV and LA (41_register_transfer.md, 45_load_address.md): one write to a register, after at most one read, in
the order in which the accesses can fault. -/

namespace Sys2Proof.Machine

/-! ## LD (41_register_transfer.md R150) -/

theorem exec_ld_of_not_gpr {rx : Nibble} (imm8 : Byte) (s : State) (h : numGpr ≤ rx.toNat) :
    exec (.ld rx imm8) s = .next (s.faulted (.registerIndexFault rx)) := by
  rcases exec_cases (.ld rx imm8) s with ⟨_, ⟨_, rfl⟩, hexec⟩ | ⟨_, ⟨hgpr, _⟩, _⟩
  · exact hexec
  · omega

/-- Settles O8: the word is the encoder's own, and the index decides between the write and the fault. -/
theorem ldWritesImmediate : Obligations.LdWritesImmediate := fun rx imm8 s =>
  ⟨decode_encode (.ld rx imm8), exec_ld_of_gpr imm8 s, exec_ld_of_not_gpr imm8 s⟩

/-! ## MV (41_register_transfer.md R151) -/

section Copy

variable {rx ry : Nibble} {s : State}

theorem exec_mv_of_readRaises {c : FaultCause} (h : ReadRaises s ry c) : exec (.mv rx ry) s = .next (s.faulted c) := by
  rw [exec, execMv, h.readGpr_eq]; rfl

/-- A source that can be read leaves the write of the destination to do. -/
theorem exec_mv_of_reg {v : Byte} (h : s.reg ry = some v) : exec (.mv rx ry) s = endCycle s (writeGpr s rx v) := by
  rw [exec, execMv, readGpr_of_reg h]; rfl

theorem exec_mv_to_gpr {v : Byte} (h : s.reg ry = some v) (hx : rx.toNat < numGpr) :
    exec (.mv rx ry) s = .next ((s.withReg rx v).completed (s.pc + 1)) := by
  rw [exec_mv_of_reg h, writeGpr_of_gpr v hx, endCycle_ok, State.withReg_pc]

theorem exec_mv_to_not_gpr (h : s.reg ry ≠ none) (hx : numGpr ≤ rx.toNat) :
    exec (.mv rx ry) s = .next (s.faulted (.registerIndexFault rx)) := by
  obtain ⟨v, hv⟩ := Option.ne_none_iff_exists'.mp h
  rw [exec_mv_of_reg hv, writeGpr_of_not_gpr v hx, endCycle_error]

end Copy

/-- Settles O9: the read of the source raises its two faults, and after it the destination's index decides. -/
theorem mvCopiesRegister : Obligations.MvCopiesRegister := fun _ _ u _ =>
  ⟨decode_wordRR u rfl rfl, fun hy => exec_mv_of_readRaises (.inl ⟨hy, rfl⟩),
    fun hy hunwritten => exec_mv_of_readRaises (.inr ⟨hy, hunwritten, rfl⟩), exec_mv_to_not_gpr,
    fun _ => exec_mv_to_gpr⟩

/-! ## LA (45_load_address.md R210) -/

/-- The extension of an address to a word adds nothing to its value (30_encoding.md R75). -/
theorem toNat_target (a : Addr) : (target a).toNat = a.toNat := BitVec.toNat_setWidth_of_le (by decide)

theorem exec_la (a : Addr) (s : State) :
    exec (.la a) s = .next (({ s with rm := some (target a) } : State).completed (s.pc + 1)) := rfl

/-- Settles O19: the word is the encoder's own, the handler cannot fault, and all it stages is RM. -/
theorem laWritesRm : Obligations.LaWritesRm := fun a s =>
  ⟨decode_encode (.la a), target a, toNat_target a, exec_la a s⟩

end Sys2Proof.Machine
end

section
/-! PROOFS. Where J and RET land, and that no instruction lands on address 0 (44_control_transfer.md; 70_reset_and_hazards.md
R277). -/

namespace Sys2Proof.Machine

/-! ## J (44_control_transfer.md R191) -/

theorem exec_j (a : Addr) (s : State) : exec (.j a) s = .next (s.completed (target a + 1)) := rfl

/-- Settles O16: the word is the encoder's own, the handler cannot fault, and PC + 1 does not wrap after a 12-bit target. -/
theorem jumpLandsAfterTarget : Obligations.JumpLandsAfterTarget := fun a s =>
  ⟨decode_encode (.j a), _, toNat_target_add_one a, exec_j a s⟩

/-! ## RET out of the stack and at an unwritten slot (44_control_transfer.md R195, R198) -/

/-- The bits that format N uses are those of the encoder's word, whatever the unused bits hold (30_encoding.md R73). -/
theorem wordA_and_F000 (op : Nibble) (u : Addr) : wordA op u &&& 0xF000 = formatN op := by
  apply BitVec.eq_of_toNat_eq
  have hword : (wordA op u).toNat = op.toNat * 4096 + u.toNat := toNat_formatA op u
  rw [toNat_and_F000, hword, toNat_formatN]
  omega

theorem decode_wordA_ret (u : Addr) : decode (wordA 0xB u) = .ok .ret := by
  refine decode_of_and_usedBits_eq (decode_encode .ret) ?_
  calc encode .ret &&& 0xF000
      = formatN 0xB := wordA_and_F000 0xB 0
    _ = wordA 0xB u &&& 0xF000 := (wordA_and_F000 0xB u).symm

theorem exec_ret_of_outside {s : State} (h : stackSlots ≤ (s.sp - 1).toNat) :
    exec .ret s = .next (s.faulted (.stackIndexFault .ret (s.sp - 1))) := by
  rcases exec_cases .ret s with ⟨_, ⟨_, rfl⟩ | ⟨hslot, _⟩, hexec⟩ | ⟨_, ⟨hslot, _⟩, _⟩
  · exact hexec
  · omega
  · omega

theorem exec_ret_of_unwritten {s : State} (h : (s.sp - 1).toNat < stackSlots) (hnone : s.stack[(s.sp - 1).toNat] = none) :
    exec .ret s = .next (s.faulted (.unwrittenRead (.stack (s.sp - 1)))) := by
  rcases exec_cases .ret s with ⟨_, ⟨hout, _⟩ | ⟨_, _, rfl⟩, hexec⟩ | ⟨_, ⟨_, v, hv, _⟩, _⟩
  · omega
  · exact hexec
  · rw [hnone] at hv; cases hv

/-- Settles O18: SP decides between the fault and the slot that RET pops, and the slot's contents decide the rest. -/
theorem retReturnsAfterPushedAddress : Obligations.RetReturnsAfterPushedAddress := by
  refine fun u s => ⟨decode_wordA_ret u, fun hempty => exec_ret_of_empty (BitVec.eq_of_toNat_eq hempty),
    fun habove => exec_ret_of_outside (by simp only [stackSlots]; bv_omega), fun k hk hsp => ?_⟩
  obtain rfl : k = (s.sp - 1).toNat := by bv_omega
  rw [BitVec.ofNat_toNat, BitVec.setWidth_eq]
  exact ⟨exec_ret_of_unwritten hk, fun v => exec_ret_of_slot hk⟩

/-! ## No completed cycle leaves PC at 0 (70_reset_and_hazards.md R277) -/

/-- A handler leaves PC at 0x1000 or below, so the increment that ends the cycle does not wrap to 0. -/
theorem completed_pc_pos {i : Instr} {s u : State} (hs : s.Inv) (hpc : s.pc.toNat < memWords)
    (hu : Handled i s u) : 1 ≤ (u.completed (u.pc + 1)).pc.toNat := by
  have hleft := hu.effect.pc_le hs hpc
  rw [State.completed_pc]
  bv_omega

theorem exec_pc_pos {i : Instr} {s t : State} (hs : s.Inv) (hpc : s.pc.toNat < memWords)
    (h : exec i s = .next t) (ht : t.fsm ≠ .haltedError) : 1 ≤ t.pc.toNat := by
  rcases exec_cases i s with ⟨c, _, e⟩ | ⟨u, hu, e⟩ <;> rw [e] at h <;> cases h
  · exact absurd (State.faulted_fsm s c) ht
  · exact completed_pc_pos hs hpc hu

theorem cycle_pc_pos {s t : State} (hs : s.Inv) (hrun : s.fsm = .running) (h : cycle s = .next t)
    (ht : t.fsm ≠ .haltedError) : 1 ≤ t.pc.toNat := by
  rcases cycle_cases s with ⟨c, _, e⟩ | ⟨w, i, hfetch, _, e⟩ | ⟨w, op, _, hdecode, _⟩
  · rw [e] at h; cases h; exact absurd rfl ht
  · exact exec_pc_pos (hs.withIr hrun w) (pc_lt_of_fetch hfetch) (e ▸ h) ht
  · exact absurd hdecode (decode_ne_error w _)

/-- Settles O43: the upper bound is the invariant's own, and below it no increment of PC wraps. -/
theorem noCycleLandsOnAddressZero : Obligations.NoCycleLandsOnAddressZero := by
  intro s t hs hrun hmoves hstep ht
  rw [step_of_running hmoves hrun] at hstep
  exact ⟨cycle_pc_pos hs hrun hstep ht, (hs.cycle hrun hstep).pc⟩

end Sys2Proof.Machine
end

section
/-! PROOFS. The reset command (70_reset_and_hazards.md R270). -/

namespace Sys2Proof.Machine

/-- Settles O34: the command takes nothing from the state but the host's later moves. -/
theorem resetFromAnyState : Obligations.ResetFromAnyState := by
  intro s rest h
  rw [step_of_reset h, commandReset]

end Sys2Proof.Machine
end
